-- ==== Sys2Proof/Word.lean ====
section
/-! DEFINITION. The word types of the Link Unpack Block: a register word, a sample, a byte (spec/10_state.md). -/

namespace Sys2Proof

/-- A 32-bit register, command word or system address (R24, R70, `ADDR_W` = 32). -/
abbrev Word := BitVec 32

/-- A 16-bit stored sample, table entry or configuration register (R28, R33). -/
abbrev Half := BitVec 16

/-- A byte of any of the three address spaces (R50). -/
abbrev Byte := BitVec 8

end Sys2Proof
end

