-- ==== Sys2Proof/Syntax.lean ====
section
/-! DEFINITION. The commands of spec/30_encoding.md R73: one constructor per row of the opcode table. -/

namespace Sys2Proof

/-- The fragmentation flag of R74: MIDDLE, BEGIN, END, SINGLE. -/
inductive Frag where
  | middle
  | begins
  | ends
  | single
deriving DecidableEq, Repr

/-- A command (R70, R73). `len` is the payload length in bytes (R76), `loss` the loss flag (R75). -/
inductive Instr where
  | beginp
  | parse11 (frag : Frag) (loss : Bool) (len : Nat)
  | parse12 (frag : Frag) (loss : Bool) (len : Nat)
  | parse6  (frag : Frag) (loss : Bool) (len : Nat)
  | parse10 (frag : Frag) (loss : Bool) (len : Nat)
  | yuv2rgb (frag : Frag) (loss : Bool) (len : Nat)
  | s2dbuild
  | s2dupdate
  | s2dfree
  | shutdown
deriving DecidableEq, Repr

end Sys2Proof
end

