-- ==== Sys2Proof/WellFormed.lean ====
section
/-! DEFINITION. Which commands have a word: `LEN` is a 16-bit count (spec/30_encoding.md R70, R76). -/

namespace Sys2Proof

/-- The payload length of a PARSE* command (R76). -/
def Instr.len? : Instr → Option Nat
  | .parse11 _ _ n => some n
  | .parse12 _ _ n => some n
  | .parse6 _ _ n  => some n
  | .parse10 _ _ n => some n
  | .yuv2rgb _ _ n => some n
  | .beginp        => none
  | .s2dbuild      => none
  | .s2dupdate     => none
  | .s2dfree       => none
  | .shutdown      => none

/-- A command is well-formed when its length, if it has one, fits the 16 bits of `LEN` (R76). -/
def Instr.wellFormed (i : Instr) : Bool :=
  match i.len? with
  | none   => true
  | some n => n < 65536

end Sys2Proof
end

