-- ==== Sys2Proof/Decode.lean ====
section
/-! DEFINITION. Decoding and encoding of command words (spec/30_encoding.md R70 to R78, R80). -/

namespace Sys2Proof

/-- Why a word is illegal (R77). -/
inductive DecodeError where
  /-- `OP` is 0x0, 0x7 or 0xB to 0xE. -/
  | unassignedOp
  /-- A bit of `RSV`, word bits 15:7, is 1. -/
  | reservedBits
  /-- `FRAG`, `LOSS` or `LEN` is not 0 with an operation that is not PARSE*. -/
  | strayOperand
deriving DecidableEq, Repr

/-- `FRAG` from its two bits (R74). -/
def Frag.ofBits (b : BitVec 2) : Frag :=
  match b with
  | 0#2 => .middle
  | 1#2 => .begins
  | 2#2 => .ends
  | 3#2 => .single

/-- The two bits of `FRAG` (R74). -/
def Frag.bits : Frag → BitVec 2
  | .middle => 0#2
  | .begins => 1#2
  | .ends   => 2#2
  | .single => 3#2

/-- The fields of R70. -/
def opField   (w : Word) : BitVec 4  := w.extractLsb' 0 4
def fragField (w : Word) : BitVec 2  := w.extractLsb' 4 2
def lossField (w : Word) : Bool      := w.getLsbD 6
def rsvField  (w : Word) : BitVec 9  := w.extractLsb' 7 9
def lenField  (w : Word) : BitVec 16 := w.extractLsb' 16 16

/-- A PARSE* row, mask 0x0000FF8F: `RSV` must be 0, the other fields are free (R73). -/
def decodeParse (c : Frag → Bool → Nat → Instr) (w : Word) : Except DecodeError Instr :=
  if rsvField w = 0#9 then .ok (c (.ofBits (fragField w)) (lossField w) (lenField w).toNat)
  else .error .reservedBits

/-- A row with mask 0xFFFFFFFF: every field but `OP` must be 0 (R73). -/
def decodePlain (i : Instr) (w : Word) : Except DecodeError Instr :=
  if rsvField w ≠ 0#9 then .error .reservedBits
  else if fragField w = 0#2 ∧ lossField w = false ∧ lenField w = 0#16 then .ok i
  else .error .strayOperand

/-- R78: read `OP`, check the row's mask, done; total, and every rejection has its name (R77). -/
def decode (w : Word) : Except DecodeError Instr :=
  match opField w with
  | 0x1#4 => decodePlain .beginp w
  | 0x2#4 => decodeParse .parse11 w
  | 0x3#4 => decodeParse .parse12 w
  | 0x4#4 => decodeParse .parse6 w
  | 0x5#4 => decodeParse .parse10 w
  | 0x6#4 => decodeParse .yuv2rgb w
  | 0x8#4 => decodePlain .s2dbuild w
  | 0x9#4 => decodePlain .s2dupdate w
  | 0xA#4 => decodePlain .s2dfree w
  | 0xF#4 => decodePlain .shutdown w
  | _     => .error .unassignedOp

/-- The decoder on an instruction of `nbits` bits whose bits are `w`: a command is one 32-bit word, with no
byte order of its own, since it is the data of one register write (R62, R70). -/
def decodeTableWord (nbits w : Nat) : Option Instr :=
  if nbits ≤ 32 ∧ w < 2 ^ 32 then
    match decode (BitVec.ofNat 32 w) with
    | .ok i    => some i
    | .error _ => none
  else none

/-- `OP` of each command (R73). -/
def Instr.op : Instr → BitVec 4
  | .beginp        => 0x1#4
  | .parse11 _ _ _ => 0x2#4
  | .parse12 _ _ _ => 0x3#4
  | .parse6 _ _ _  => 0x4#4
  | .parse10 _ _ _ => 0x5#4
  | .yuv2rgb _ _ _ => 0x6#4
  | .s2dbuild      => 0x8#4
  | .s2dupdate     => 0x9#4
  | .s2dfree       => 0xA#4
  | .shutdown      => 0xF#4

/-- `(len << 16) | (loss << 6) | (frag << 4) | OP` (R80), which is the layout of R70 with `RSV` = 0. -/
def wordOf (len : Nat) (loss : Bool) (frag : Frag) (op : BitVec 4) : Word :=
  (BitVec.ofNat 32 len <<< 16) ||| ((BitVec.ofBool loss).setWidth 32 <<< 6) |||
    (frag.bits.setWidth 32 <<< 4) ||| op.setWidth 32

/-- The word of a well-formed command (R70, R80). -/
def encode : Instr → Word
  | .beginp             => wordOf 0 false .middle Instr.beginp.op
  | .parse11 frag loss n => wordOf n loss frag (Instr.parse11 frag loss n).op
  | .parse12 frag loss n => wordOf n loss frag (Instr.parse12 frag loss n).op
  | .parse6 frag loss n  => wordOf n loss frag (Instr.parse6 frag loss n).op
  | .parse10 frag loss n => wordOf n loss frag (Instr.parse10 frag loss n).op
  | .yuv2rgb frag loss n => wordOf n loss frag (Instr.yuv2rgb frag loss n).op
  | .s2dbuild           => wordOf 0 false .middle Instr.s2dbuild.op
  | .s2dupdate          => wordOf 0 false .middle Instr.s2dupdate.op
  | .s2dfree            => wordOf 0 false .middle Instr.s2dfree.op
  | .shutdown           => wordOf 0 false .middle Instr.shutdown.op

/-- A row of R73's table: the operation with its `match` and `mask`. -/
structure OpRow where
  op       : BitVec 4
  pattern  : Word
  mask     : Word
deriving DecidableEq, Repr

/-- R73's table, as it stands there. -/
def opRows : List OpRow :=
  [ ⟨0x1#4, 0x00000001#32, 0xFFFFFFFF#32⟩,
    ⟨0x2#4, 0x00000002#32, 0x0000FF8F#32⟩,
    ⟨0x3#4, 0x00000003#32, 0x0000FF8F#32⟩,
    ⟨0x4#4, 0x00000004#32, 0x0000FF8F#32⟩,
    ⟨0x5#4, 0x00000005#32, 0x0000FF8F#32⟩,
    ⟨0x6#4, 0x00000006#32, 0x0000FF8F#32⟩,
    ⟨0x8#4, 0x00000008#32, 0xFFFFFFFF#32⟩,
    ⟨0x9#4, 0x00000009#32, 0xFFFFFFFF#32⟩,
    ⟨0xA#4, 0x0000000A#32, 0xFFFFFFFF#32⟩,
    ⟨0xF#4, 0x0000000F#32, 0xFFFFFFFF#32⟩ ]

/-- The row selects the word: `(w & mask) == match` (R73). -/
def OpRow.selects (r : OpRow) (w : Word) : Bool := w &&& r.mask == r.pattern

end Sys2Proof
end

