-- ==== Sys2Proof/Config.lean ====
section
/-! DEFINITION. The implementation parameters of spec/00_scope.md R6, and the calibration record they read. -/

namespace Sys2Proof

/-- The shift-to-depth configuration registers of R28: the document's calibration record, which
`DEPTH_FN` takes whole (R142's `cfg`). -/
structure S2dConfig where
  maxShift  : Half
  maxDepth  : Half
  minCutoff : Half
  maxCutoff : Half
  psf       : Half
  cal0 : Word
  cal1 : Word
  cal2 : Word
  cal3 : Word
  cal4 : Word
  cal5 : Word
  cal6 : Word
  cal7 : Word
deriving DecidableEq, Repr

/-- The orders in which packed samples can sit in the byte stream (`BIT_ORDER`, D5): the first sample begins at the
most significant bit of the first byte, or at the least significant one (A13). -/
inductive BitOrder where
  | msbFirst
  | lsbFirst
deriving DecidableEq, Repr

/-- A range of system memory the platform admits (R57; A4). -/
structure Region where
  base     : Nat
  size     : Nat
  readable : Bool
  writable : Bool
deriving DecidableEq, Repr

/-- The eleven parameters of R6. -/
structure Config where
  /-- `ADDR_W` (D3). -/
  addrW     : Nat
  /-- `BIG_ENDIAN` (D4). -/
  bigEndian : Bool
  /-- `BIT_ORDER` (D5). -/
  bitOrder  : BitOrder
  /-- `OUT_W` (D6), in bits: a whole number of bytes (A13). -/
  outW      : Nat
  /-- `LOOKUP12` (D7). -/
  lookup12  : Bool
  /-- `TAIL_FLUSH` (D8). -/
  tailFlush : Bool
  /-- `SHIFT_RAM` (D9). -/
  shiftRam  : Nat
  /-- `DEPTH_RAM` (D9). -/
  depthRam  : Nat
  /-- `DEPTH_FN` (D10, R143): a depth in the units of the stored values, or none. -/
  depthFn   : S2dConfig → Nat → Option Rat
  /-- `MemAdmit` (D11, R57): the admitted ranges of addresses (A4). -/
  memAdmit  : List Region
  /-- `ID_VALUE` (D1). -/
  idValue   : Word

/-- The OPEN parameter `DEPTH_FN` (R143): uninterpreted, so that what is proved holds whatever it is (A5). -/
opaque Config.openDepthFn : S2dConfig → Nat → Option Rat

/-- LUB version 1: the values R6 decides, the two OPEN parameters as arguments. -/
def Config.version1 (depthFn : S2dConfig → Nat → Option Rat) (memAdmit : List Region) : Config where
  addrW     := 32
  bigEndian := false
  bitOrder  := .msbFirst
  outW      := 16
  lookup12  := true
  tailFlush := true
  shiftRam  := 65536
  depthRam  := 65536
  depthFn   := depthFn
  memAdmit  := memAdmit
  idValue   := 0x4C554201#32

/-- A platform that admits every address of the 32-bit space for reading and writing (A4). -/
def Config.admitAll : List Region := [⟨0, 2 ^ 32, true, true⟩]

/-- LUB version 1 with `DEPTH_FN` left open, on the platform of `State.reset` (A4). -/
def Config.lub : Config := Config.version1 Config.openDepthFn Config.admitAll

end Sys2Proof
end

