-- ==== Sys2Proof/Machine/State.lean ====
section
/-! DEFINITION. The state of the Link Unpack Block as plain data (spec/10_state.md), the host's pending moves
(spec/70_reset_and_hazards.md R192), the faults and refusals, and the state after reset (R42, R180). -/

namespace Sys2Proof.Machine

/-- The result codes of R160 (codes 6 to 15 are never written, so they have no constructor). -/
inductive ResultCode where
  | ok
  | outputBufferOverflow
  | badPacketFormat
  | invalidConfig
  | allocFailure
  | badCommand
deriving DecidableEq, Repr

/-- The fields of `STATUS` (R26); its reserved bits read 0. -/
structure Status where
  err     : ResultCode
  corrupt : Bool
  bound   : Bool
  tbl     : Bool
  cerr    : ResultCode
deriving DecidableEq, Repr

/-- The codec state of an accumulator engine whose residual bits fit `w` bits (R35 to R37): `nb` residual
bits, with value `acc`, the earliest received most significant. -/
structure Accum (w : Nat) where
  nb  : BitVec 4
  acc : BitVec w
deriving DecidableEq, Repr

/-- The codec state of the five engines, disjoint (R35 to R40). -/
structure Codec where
  /-- `NB11`, `ACC11` (R35). -/
  u11 : Accum 10
  /-- `C12`, bytes in arrival order (R38). -/
  c12 : List Byte
  /-- `NB6`, `ACC6` (R36). -/
  u6  : Accum 4
  /-- `NB10`, `ACC10` (R37). -/
  u10 : Accum 8
  /-- `CY`, bytes in arrival order (R39). -/
  cy  : List Byte
deriving DecidableEq, Repr

/-- One move of the host or the platform (R192; A1). `bytes` is the width of a register access (R52). -/
inductive HostMove where
  | regRead  (offset bytes : Nat)
  | regWrite (offset bytes : Nat) (data : Word)
  | memRead  (addr : Nat)
  | memWrite (addr : Nat) (data : Byte)
  | reset
deriving DecidableEq, Repr

/-- System memory: (address, byte) pairs in canonical form (`Memory.wf`). -/
abbrev Memory := List Host.Cell

/-- The state: what R21 lists, system memory (R50), and the model's own `memAdmit`, `host` and `reads`. -/
structure State where
  /-- `SRC_BASE`, `DST_BASE`, `DST_CAP` (R24). -/
  srcBase : Word
  dstBase : Word
  dstCap  : Word
  /-- `WR`, `BOUND_BASE`, `BOUND_CAP` (R25). -/
  wr        : Word
  boundBase : Word
  boundCap  : Word
  /-- `STATUS` (R26). -/
  status : Status
  /-- `S2D_MAX_SHIFT` to `S2D_CAL7` (R28). -/
  s2dConfig : S2dConfig
  /-- `SHIFT_COUNT`, `DEPTH_COUNT`, `SHIFT_ALLOC`, `DEPTH_ALLOC` (R29). -/
  shiftCount : BitVec 17
  depthCount : BitVec 17
  shiftAlloc : BitVec 17
  depthAlloc : BitVec 17
  /-- The forward table `S2D` and the inverse table `D2S`, by entry (R33; A7). -/
  s2d : List Half
  d2s : List Half
  /-- The engines (R35 to R39). -/
  codec : Codec
  /-- System memory (R50). -/
  mem : Memory
  /-- The platform's `MemAdmit`, left open: any list of regions, which no step changes (R6, R57; A4). -/
  memAdmit : List Region
  /-- The host's pending moves, oldest first (R192; A1). -/
  host : List HostMove
  /-- The words the host's reads have returned, oldest first (R52, R54; A3). -/
  reads : List Word
deriving DecidableEq, Repr

/-- Why the machine stops. -/
inductive Fault where
  /-- Raised by PARSE* (`memRead`) when a byte of the source range is not admitted for reading (R57, U7).
  Safe: the spec gives the command no meaning there. -/
  | sourceNotAdmitted
  /-- Raised by PARSE* (`memWrite`) when a byte of the range it is about to write is not admitted for writing
  (R57, U7). Safe: the spec gives the command no meaning there. -/
  | destinationNotAdmitted
  /-- Raised by a memory access at or above 2^ADDR_W (R50): by a host memory move, and by PARSE* in states
  where the invariant of R25 does not hold. Safe: no such byte exists. -/
  | noSuchAddress
deriving DecidableEq, Repr

/-- What the model gives no meaning. -/
inductive Refusal where
  /-- Raised by an arm of exec that has no meaning yet (none is left). Safe. -/
  | notModelled (mnemonic : String)
  /-- Raised by step on a register access that is not an aligned 32-bit access below 0xC0000, which R52 puts
  outside the spec (U6). Safe. -/
  | unsupportedAccess
deriving DecidableEq, Repr

/-- What a step or a meaning answers. -/
abbrev Result := Host.Outcome State Fault Refusal

/-- The state right after reset on a platform that admits `regions` (R42, R180): every register 0, the engines empty,
nothing bound, no table. `mem`, `host`, `reads`, `s2d`, `d2s` hold what A6, A1, A3 and A7 name. -/
def State.resetOn (regions : List Region) : State where
  srcBase := 0#32
  dstBase := 0#32
  dstCap  := 0#32
  wr        := 0#32
  boundBase := 0#32
  boundCap  := 0#32
  status := ⟨.ok, false, false, false, .ok⟩
  s2dConfig := ⟨0#16, 0#16, 0#16, 0#16, 0#16, 0#32, 0#32, 0#32, 0#32, 0#32, 0#32, 0#32, 0#32⟩
  shiftCount := 0#17
  depthCount := 0#17
  shiftAlloc := 0#17
  depthAlloc := 0#17
  s2d := []
  d2s := []
  codec := ⟨⟨0#4, 0#10⟩, [], ⟨0#4, 0#4⟩, ⟨0#4, 0#8⟩, []⟩
  mem := []
  memAdmit := regions
  host := []
  reads := []

/-- The state right after reset on the platform that admits every address (A4). -/
def State.reset : State := State.resetOn Config.admitAll

end Sys2Proof.Machine
end

