-- ==== Sys2Proof/Machine/Flags.lean ====
section
/-! DEFINITION. `STATUS`: its word, its result codes, and the ways a command writes it
(spec/10_state.md R26, spec/60_exceptions.md R160 to R165). -/

namespace Sys2Proof.Machine

/-- The numeric result codes of R160. -/
def ResultCode.code : ResultCode → BitVec 4
  | .ok                   => 0#4
  | .outputBufferOverflow => 1#4
  | .badPacketFormat      => 2#4
  | .invalidConfig        => 3#4
  | .allocFailure         => 4#4
  | .badCommand           => 5#4

/-- `STATUS` as the host reads it (R26): `ERR` 3:0, `CORRUPT` 4, `BOUND` 5, `TBL` 6, 0, `CERR` 11:8, 0. -/
def Status.word (t : Status) : Word :=
  t.err.code.setWidth 32 ||| ((BitVec.ofBool t.corrupt).setWidth 32 <<< 4) |||
    ((BitVec.ofBool t.bound).setWidth 32 <<< 5) ||| ((BitVec.ofBool t.tbl).setWidth 32 <<< 6) |||
    (t.cerr.code.setWidth 32 <<< 8)

/-- `STATUS.ERR <- e` (R160: every command ends by writing one result code). -/
def setErr (e : ResultCode) (s : State) : State :=
  { s with status := { s.status with err := e } }

/-- `STATUS.CORRUPT <- 0; STATUS.CERR <- 0` (R100 step 3, R165). -/
def clearCorrupt (s : State) : State :=
  { s with status := { s.status with corrupt := false, cerr := .ok } }

/-- `STATUS.CORRUPT <- 1; STATUS.CERR <- e`: a codec error (R165). -/
def markCorrupt (e : ResultCode) (s : State) : State :=
  { s with status := { s.status with corrupt := true, cerr := e } }

end Sys2Proof.Machine
end

