-- ==== Sys2Proof/Machine/Ops.lean ====
section
/-! DEFINITION. The named operations: system memory and its admission (spec/00_scope.md R10, spec/20_memory.md R50
to R59), ending a command with a result code (R11: the block's only form of exception), reset (R180). -/

namespace Sys2Proof.Machine

/-! ## System memory -/

/-- What a byte of system memory that nothing has written reads as (A6: DESIGN CHOICE, unsafe). -/
def Memory.blank : Byte := 0#8

/-- The byte at address `a`. -/
def Memory.read : Memory → Nat → Byte
  | [], _ => Memory.blank
  | (k, v) :: m, a => if k = a then v else Memory.read m a

/-- `m` with byte `v` at address `a`, in canonical form. -/
def Memory.write : Memory → Nat → Byte → Memory
  | [], a, v => if v = Memory.blank then [] else [(a, v)]
  | (k, w) :: m, a, v =>
    if a < k then (if v = Memory.blank then (k, w) :: m else (a, v) :: (k, w) :: m)
    else if a = k then (if v = Memory.blank then m else (a, v) :: m)
    else (k, w) :: Memory.write m a v

/-- The canonical form: addresses strictly rising, no entry equal to what an unlisted address reads as. -/
abbrev Memory.wf (m : Memory) : Prop :=
  m.Pairwise (fun c d => c.1 < d.1) ∧ ∀ c ∈ m, c.2 ≠ Memory.blank

/-- The `n` bytes from address `a` on, ascending (R10 `MemRead`). -/
def Memory.readBytes (m : Memory) (a : Nat) : Nat → List Byte
  | 0     => []
  | n + 1 => m.read a :: Memory.readBytes m (a + 1) n

/-- `m` with the bytes of the list at `a`, `a + 1`, ... (R10 `MemWrite`). -/
def Memory.writeBytes (m : Memory) (a : Nat) : List Byte → Memory
  | []      => m
  | b :: bs => Memory.writeBytes (m.write a b) (a + 1) bs

/-! ## Admission (R57) -/

/-- `p` holds of the `n` addresses from `a` on. -/
def allFrom (p : Nat → Bool) (a : Nat) : Nat → Bool
  | 0     => true
  | n + 1 => p a && allFrom p (a + 1) n

/-- The implementation a machine in state `s` is (R6): LUB version 1, with `DEPTH_FN` open and the platform's
`MemAdmit` (A4). -/
def State.config (s : State) : Config := Config.version1 Config.openDepthFn s.memAdmit

/-- Address `a` lies in the region. -/
def regionHolds (r : Region) (a : Nat) : Bool :=
  decide (r.base ≤ a) && decide (a < r.base + r.size)

/-- `MemAdmit`: the block may read the byte at `a` (R57). -/
def mayRead (cfg : Config) (a : Nat) : Bool :=
  cfg.memAdmit.any fun r => r.readable && regionHolds r a

/-- `MemAdmit`: the block may write the byte at `a` (R57). -/
def mayWrite (cfg : Config) (a : Nat) : Bool :=
  cfg.memAdmit.any fun r => r.writable && regionHolds r a

/-- The block's `MemRead(a, n)` (R10): every address exists (R50; A11) and is admitted for reading
(R57; A17). -/
def memRead (cfg : Config) (s : State) (a n : Nat) : Except Fault (List Byte) :=
  if 2 ^ cfg.addrW < a + n then .error .noSuchAddress
  else if allFrom (mayRead cfg) a n then .ok (s.mem.readBytes a n)
  else .error .sourceNotAdmitted

/-- The block's `MemWrite(a, len(bs), bs)` (R10): every address exists (R50) and is admitted for writing (R57);
the memory afterwards. -/
def memWrite (cfg : Config) (s : State) (a : Nat) (bs : List Byte) : Except Fault Memory :=
  if 2 ^ cfg.addrW < a + bs.length then .error .noSuchAddress
  else if allFrom (mayWrite cfg) a bs.length then .ok (s.mem.writeBytes a bs)
  else .error .destinationNotAdmitted

/-! ## Ending a command (R11, R168): there is no trap, no handler and no saved state -/

/-- `fail(E)` (R11): the command ends with `STATUS.ERR <- code(E)`; what it keeps is in `s`. -/
def fail (e : ResultCode) (s : State) : Result := .next (setErr e s)

/-- A command that ends without `fail` sets `STATUS.ERR <- 0` (R11). -/
def succeed (s : State) : Result := .next (setErr .ok s)

/-- `fail` of a codec error: `CORRUPT` and `CERR` are set too (R100 step 7, R165). -/
def failCodec (e : ResultCode) (s : State) : Result := fail e (markCorrupt e s)

/-- Executing an illegal word changes no state except `STATUS.ERR <- BadCommand` (R77). -/
def illegalCommand (s : State) : Result := fail .badCommand s

/-! ## Reset -/

/-- Reset by the platform (R180): every piece of the block's state at its reset value; system memory, the
platform's admission and the host's own data are not touched (A9). -/
def resetBlock (s : State) : State :=
  { State.resetOn s.memAdmit with mem := s.mem, host := s.host, reads := s.reads }

end Sys2Proof.Machine
end

