-- ==== Sys2Proof/Machine/Operands.lean ====
section
/-! DEFINITION. Operand forms: the bits of `FRAG` (spec/30_encoding.md R74), the emission primitives
(spec/00_scope.md R10, R12, spec/41_unpack.md R108) and the table lookup (R104). -/

namespace Sys2Proof.Machine

/-- `FRAG.BEGIN`, word bit 4 (R74). -/
def hasBegin : Frag → Bool
  | .middle => false
  | .begins => true
  | .ends   => false
  | .single => true

/-- `FRAG.END`, word bit 5 (R74). -/
def hasEnd : Frag → Bool
  | .middle => false
  | .begins => false
  | .ends   => true
  | .single => true

/-- How many bytes a stored sample has: 2, `OUT_W` being 16 bits (R101). -/
def sampleSize (cfg : Config) : Nat := cfg.outW / 8

/-- The bytes of a stored sample, in address order (R10 `MemWrite16`, R55), for any `OUT_W` (A13). -/
def sampleBytes (cfg : Config) (v : Half) : List Byte :=
  let le := (List.range (sampleSize cfg)).map fun i => v.extractLsb' (8 * i) 8
  if cfg.bigEndian then le.reverse else le

/-- `emit16(v)`: the bytes written, 0 in place of `v` when `LOSS` is 1 (R12, R108). -/
def emit16 (cfg : Config) (loss : Bool) (v : Half) : List Byte :=
  sampleBytes cfg (if loss then 0#16 else v)

/-- `emit8(b)`: the byte written, 0 in place of `b` when `LOSS` is 1 (R12, R108). -/
def emit8 (loss : Bool) (b : Byte) : Byte := if loss then 0#8 else b

/-- `emit16` of each sample in turn, `out` giving the stored value. -/
def emitSamples (cfg : Config) (loss : Bool) (out : Nat → Half) (vs : List Nat) : List Byte :=
  vs.flatMap fun v => emit16 cfg loss (out v)

/-- A payload byte as the engines take it, its first bit of the stream on top: `BIT_ORDER` (R102; A13). -/
def streamByte (o : BitOrder) (b : Byte) : Byte :=
  match o with
  | .msbFirst => b
  | .lsbFirst => b.reverse

/-- A sample of `bpp` bits, gathered with its first bit on top, as a value: `BIT_ORDER` (R102; A13). -/
def sampleValue (o : BitOrder) (bpp v : Nat) : Nat :=
  match o with
  | .msbFirst => v
  | .lsbFirst => (BitVec.ofNat bpp v).reverse.toNat

/-- `lut(v)` (R104): the table in force is the first `SHIFT_COUNT` entries of `S2D`; beyond it, 0. -/
def lut (s : State) (v : Nat) : Half :=
  if v < s.shiftCount.toNat then s.s2d.getD v 0#16 else 0#16

/-- `out(v) = v` of the engines without lookup (R102, R112, R113), stored in 16 bits. -/
def plainSample (v : Nat) : Half := BitVec.ofNat 16 v

end Sys2Proof.Machine
end

