-- ==== Sys2Proof/Machine/Parse.lean ====
section
/-! DEFINITION. The common sequence of every PARSE* command (spec/41_unpack.md R100). -/

namespace Sys2Proof.Machine

/-- What R100 needs to know of an engine E. It reads and writes the codec state only, and reads the table only
through the lookup it is given (R40). -/
structure Engine where
  /-- Step 3: E's codec state to its reset value. -/
  restart : Codec → Codec
  /-- Step 6: the bytes E will emit for a payload of that length, `FRAG.END` given. -/
  need : Codec → Bool → Nat → Nat
  /-- Step 8: with the lookup, `FRAG.END` and `LOSS` given, the bytes emitted for a payload and the codec state after. -/
  run : (Nat → Half) → Codec → Bool → Bool → List Byte → List Byte × Codec

/-- Step 3 of R100: with the BEGIN bit, E's state is reset and `CORRUPT`, `CERR` are cleared. -/
def beginReset (e : Engine) (frag : Frag) (s : State) : State :=
  if hasBegin frag then clearCorrupt { s with codec := e.restart s.codec } else s

/-- The end of step 8 and step 9 of R100: the emitted bytes stored from `BOUND_BASE + WR` on (R12), the codec
state kept, `WR` advanced, `STATUS.ERR <- 0`. -/
def store (cfg : Config) (need : Nat) (r : List Byte × Codec) (s : State) : Result :=
  match memWrite cfg s (s.boundBase.toNat + s.wr.toNat) r.1 with
  | .error f => .fault f
  | .ok m    => succeed { s with mem := m, codec := r.2, wr := BitVec.ofNat 32 (s.wr.toNat + need) }

/-- Steps 5 to 9 of R100, from the state after step 3; admission is asked for at steps 5 and 8 (A17). -/
def parsePayload (cfg : Config) (e : Engine) (last loss : Bool) (len : Nat) (s : State) : Result :=
  match memRead cfg s s.srcBase.toNat len with
  | .error f => .fault f
  | .ok payload =>
    if s.boundCap.toNat < s.wr.toNat + e.need s.codec last len then failCodec .outputBufferOverflow s
    else store cfg (e.need s.codec last len) (e.run (lut s) s.codec last loss payload) s

/-- R100, steps 2 to 9 (step 1, the illegal word, is `illegalCommand`). -/
def parse (cfg : Config) (e : Engine) (frag : Frag) (loss : Bool) (len : Nat) (s : State) : Result :=
  if 2 ^ cfg.addrW < s.srcBase.toNat + len then fail .badCommand s
  else if (beginReset e frag s).status.corrupt then
    fail (beginReset e frag s).status.cerr (beginReset e frag s)
  else parsePayload cfg e (hasEnd frag) loss len (beginReset e frag s)

end Sys2Proof.Machine
end

