-- ==== Sys2Proof/Machine/Accumulator.lean ====
section
/-! DEFINITION. The accumulator engines U11, U6, U10 (spec/41_unpack.md R101, R102, R107) over a sample width `bpp`,
a count `nb` of residual bits and their value `acc`, and the commands PARSE11, PARSE6, PARSE10 (R109, R112, R113). -/

namespace Sys2Proof.Machine

/-- The `while nb >= bpp` loop of R102: the samples taken, and `nb`, `acc` after. The first argument bounds the
number of turns. -/
def drain (bpp : Nat) : Nat → Nat → Nat → List Nat × Nat × Nat
  | 0, nb, acc => ([], nb, acc)
  | k + 1, nb, acc =>
    if bpp ≤ nb then
      let r := drain bpp k (nb - bpp) (acc % 2 ^ (nb - bpp))
      ((acc / 2 ^ (nb - bpp)) % 2 ^ bpp :: r.1, r.2)
    else ([], nb, acc)

/-- One input byte per transition (R102): at most `nb + 8` turns of the loop. -/
def accByte (bpp nb acc : Nat) (b : Byte) : List Nat × Nat × Nat :=
  drain bpp (nb + 8) (nb + 8) (acc * 256 + b.toNat)

/-- The payload bytes in ascending order (R102). -/
def accBytes (bpp : Nat) : Nat → Nat → List Byte → List Nat × Nat × Nat
  | nb, acc, [] => ([], nb, acc)
  | nb, acc, b :: bs =>
    let r := accByte bpp nb acc b
    let q := accBytes bpp r.2.1 r.2.2 bs
    (r.1 ++ q.1, q.2)

/-- The end of a message (R107): the residual bits in the top of one sample, zeros below (A14). -/
def accTail (cfg : Config) (bpp nb acc : Nat) : List Nat :=
  if nb ≠ 0 ∧ cfg.tailFlush then [acc * 2 ^ (bpp - nb)] else []

/-- The samples of one packet and the residue after it (R102, R107). -/
def accPacket (cfg : Config) (bpp nb acc : Nat) (last : Bool) (payload : List Byte) : List Nat × Nat × Nat :=
  let r := accBytes bpp nb acc (payload.map (streamByte cfg.bitOrder))
  let values := List.map (sampleValue cfg.bitOrder bpp)
  if last then (values (r.1 ++ accTail cfg bpp r.2.1 r.2.2), 0, 0) else (values r.1, r.2)

/-- `need` of R101. -/
def accNeed (cfg : Config) (bpp nb : Nat) (last : Bool) (len : Nat) : Nat :=
  let total := nb + 8 * len
  let flush := if last && cfg.tailFlush && decide (total % bpp ≠ 0) then 1 else 0
  sampleSize cfg * (total / bpp + flush)

/-- The state of an accumulator engine after a packet, back in its register fields (R35 to R37; A18). -/
def residue (w : Nat) (r : Nat × Nat) : Accum w := ⟨BitVec.ofNat 4 r.1, BitVec.ofNat w r.2⟩

/-- U11 (R35, R109): `bpp` = 11, every sample looked up. -/
def engine11 (cfg : Config) : Engine where
  restart c := { c with u11 := ⟨0#4, 0#10⟩ }
  need c last len := accNeed cfg 11 c.u11.nb.toNat last len
  run look c last loss payload :=
    let r := accPacket cfg 11 c.u11.nb.toNat c.u11.acc.toNat last payload
    (emitSamples cfg loss look r.1, { c with u11 := residue 10 r.2 })

/-- U6 (R36, R112): `bpp` = 6, no lookup. -/
def engine6 (cfg : Config) : Engine where
  restart c := { c with u6 := ⟨0#4, 0#4⟩ }
  need c last len := accNeed cfg 6 c.u6.nb.toNat last len
  run _ c last loss payload :=
    let r := accPacket cfg 6 c.u6.nb.toNat c.u6.acc.toNat last payload
    (emitSamples cfg loss plainSample r.1, { c with u6 := residue 4 r.2 })

/-- U10 (R37, R113): `bpp` = 10, no lookup. -/
def engine10 (cfg : Config) : Engine where
  restart c := { c with u10 := ⟨0#4, 0#8⟩ }
  need c last len := accNeed cfg 10 c.u10.nb.toNat last len
  run _ c last loss payload :=
    let r := accPacket cfg 10 c.u10.nb.toNat c.u10.acc.toNat last payload
    (emitSamples cfg loss plainSample r.1, { c with u10 := residue 8 r.2 })

/-- PARSE11 (R109). -/
def execParse11 (frag : Frag) (loss : Bool) (len : Nat) (s : State) : Result :=
  parse s.config (engine11 s.config) frag loss len s

/-- PARSE6 (R112). -/
def execParse6 (frag : Frag) (loss : Bool) (len : Nat) (s : State) : Result :=
  parse s.config (engine6 s.config) frag loss len s

/-- PARSE10 (R113). -/
def execParse10 (frag : Frag) (loss : Bool) (len : Nat) (s : State) : Result :=
  parse s.config (engine10 s.config) frag loss len s

end Sys2Proof.Machine
end

