-- ==== Sys2Proof/Machine/Group12.lean ====
section
/-! DEFINITION. The 12-bit group unpacker U12 and the command PARSE12 (spec/41_unpack.md R110, R111). -/

namespace Sys2Proof.Machine

/-- `emit_triple` (R111): 3 bytes, 2 samples, most significant bits first. -/
def tripleSamples (b0 b1 b2 : Byte) : List Nat :=
  [b0.toNat * 16 + b1.toNat / 16, (b1.toNat % 16) * 256 + b2.toNat]

/-- `emit_tail` (R111): the whole samples, then one zero-filled partial sample if bits remain (A14). -/
def tailSamples : List Byte → List Nat
  | b0 :: b1 :: b2 :: bs => tripleSamples b0 b1 b2 ++ tailSamples bs
  | [b0, b1]             => [b0.toNat * 16 + b1.toNat / 16, (b1.toNat % 16) * 256]
  | [b0]                 => [b0.toNat * 16]
  | []                   => []

/-- `emit_group` (R111) on the 24 bytes it is given: eight triples. -/
def groupSamples : List Byte → List Nat
  | b0 :: b1 :: b2 :: bs => tripleSamples b0 b1 b2 ++ groupSamples bs
  | _                    => []

/-- The `g` groups at the head of the byte list, in order (R110 step 8). -/
def groupsSamples : Nat → List Byte → List Nat
  | 0, _      => []
  | g + 1, bs => groupSamples (bs.take 24) ++ groupsSamples g (bs.drop 24)

/-- `need` of R110, `n` being `len(S)`, the leftover bytes and the payload together. -/
def need12 (cfg : Config) (n : Nat) (last : Bool) : Nat :=
  let tail := if last && cfg.tailFlush then (2 * (n % 24) + 2) / 3 else 0
  sampleSize cfg * (16 * (n / 24) + tail)

/-- The samples of one packet, `bs` being `S`, and the carry buffer after it (R110 step 8). -/
def packet12 (cfg : Config) (bs : List Byte) (last : Bool) : List Nat × List Byte :=
  let g := bs.length / 24
  let left := bs.drop (24 * g)
  let stream := List.map (streamByte cfg.bitOrder)
  let values := List.map (sampleValue cfg.bitOrder 12)
  if last then
    (values (groupsSamples g (stream bs) ++ (if cfg.tailFlush then tailSamples (stream left) else [])), [])
  else (values (groupsSamples g (stream bs)), left)

/-- `out12` (R111): through the table when `LOOKUP12`. -/
def out12 (cfg : Config) (look : Nat → Half) (v : Nat) : Half :=
  if cfg.lookup12 then look v else plainSample v

/-- U12 (R38, R110). -/
def engine12 (cfg : Config) : Engine where
  restart c := { c with c12 := [] }
  need c last len := need12 cfg (c.c12.length + len) last
  run look c last loss payload :=
    let r := packet12 cfg (c.c12 ++ payload) last
    (emitSamples cfg loss (out12 cfg look) r.1, { c with c12 := r.2 })

/-- PARSE12 (R110). -/
def execParse12 (frag : Frag) (loss : Bool) (len : Nat) (s : State) : Result :=
  parse s.config (engine12 s.config) frag loss len s

end Sys2Proof.Machine
end

