-- ==== Sys2Proof/Machine/Session.lean ====
section
/-! DEFINITION. The session commands BEGINP and SHUTDOWN (spec/40_session.md R90, R92). -/

namespace Sys2Proof.Machine

/-- R90 for an implementation `cfg`. -/
def beginp (cfg : Config) (s : State) : Result :=
  if 2 ^ cfg.addrW < s.dstBase.toNat + s.dstCap.toNat then fail .badCommand s
  else succeed { s with boundBase := s.dstBase, boundCap := s.dstCap, wr := 0#32,
                        status := { s.status with bound := true } }

/-- BEGINP (R90). -/
def execBeginp (s : State) : Result := beginp s.config s

/-- SHUTDOWN (R92): session registers, `CORRUPT`, `CERR`, `BOUND` and all five engines to their reset values. -/
def execShutdown (s : State) : Result :=
  succeed { s with boundBase := 0#32, boundCap := 0#32, wr := 0#32,
                   status := { s.status with bound := false, corrupt := false, cerr := .ok },
                   codec := State.reset.codec }

end Sys2Proof.Machine
end

