-- ==== Sys2Proof/Machine/Tables.lean ====
section
/-! DEFINITION. The shift-to-depth table generator S2DBUILD, S2DUPDATE, S2DFREE (spec/43_s2d.md R140 to R146). -/

namespace Sys2Proof.Machine

/-- The list with the entries of indices `lo` up to but not including `hi` set to `v` (R142's `for i in lo .. hi-1`). -/
def setRange (v : Half) : Nat → Nat → List Half → List Half
  | _, _, []               => []
  | 0, 0, x :: xs          => x :: xs
  | 0, hi + 1, _ :: xs     => v :: setRange v 0 hi xs
  | lo + 1, hi, x :: xs    => x :: setRange v lo (hi - 1) xs

/-- The test of R142 (b), (c) on a shift: its stored depth `floor(q)` if the shift is valid. -/
def validDepth (f : S2dConfig → Nat → Option Rat) (r : S2dConfig) (s : Nat) : Option Nat :=
  match f r s with
  | none => none
  | some q =>
    if (r.minCutoff.toNat : Rat) < q ∧ q < (r.maxCutoff.toNat : Rat) ∧ q.floor ≤ (r.maxDepth.toNat : Int) then
      some q.floor.toNat
    else none

/-- The loop state of R142. -/
structure FillState where
  s2d       : List Half
  d2s       : List Half
  lastDepth : Nat
  lastIndex : Nat
deriving DecidableEq, Repr

/-- One turn of the loop of R142, for the shift `s`. -/
def fillShift (f : S2dConfig → Nat → Option Rat) (r : S2dConfig) (a : FillState) (s : Nat) : FillState :=
  match validDepth f r s with
  | none   => a
  | some d =>
    { s2d       := a.s2d.set s (BitVec.ofNat 16 d)
      d2s       := setRange (BitVec.ofNat 16 a.lastIndex) a.lastDepth d a.d2s
      lastDepth := d
      lastIndex := s }

/-- The loop of R142, over the shifts 1 to `ms - 1`, from tables of zeros of the allocated sizes (a). -/
def fillLoop (f : S2dConfig → Nat → Option Rat) (r : S2dConfig) (shiftAlloc depthAlloc : Nat) : FillState :=
  (List.range' 1 (r.maxShift.toNat - 1)).foldl (fillShift f r)
    ⟨List.replicate shiftAlloc 0#16, List.replicate depthAlloc 0#16, 0, 0⟩

/-- The forward table that `fill()` leaves (R142; A16). -/
def fillS2d (f : S2dConfig → Nat → Option Rat) (r : S2dConfig) (shiftAlloc depthAlloc : Nat) : List Half :=
  (fillLoop f r shiftAlloc depthAlloc).s2d

/-- The inverse table that `fill()` leaves: after the loop, (e) the last valid shift up to `md` inclusive (R142). -/
def fillD2s (f : S2dConfig → Nat → Option Rat) (r : S2dConfig) (shiftAlloc depthAlloc : Nat) : List Half :=
  let a := fillLoop f r shiftAlloc depthAlloc
  setRange (BitVec.ofNat 16 a.lastIndex) a.lastDepth (r.maxDepth.toNat + 1) a.d2s

/-- `fill()` (R142) on the state: both tables over the allocation, then the counts in force. -/
def fill (cfg : Config) (s : State) : State :=
  { s with
    s2d        := fillS2d cfg.depthFn s.s2dConfig s.shiftAlloc.toNat s.depthAlloc.toNat
    d2s        := fillD2s cfg.depthFn s.s2dConfig s.shiftAlloc.toNat s.depthAlloc.toNat
    shiftCount := BitVec.ofNat 17 (s.s2dConfig.maxShift.toNat + 1)
    depthCount := BitVec.ofNat 17 (s.s2dConfig.maxDepth.toNat + 1) }

/-- The allocation of R140. -/
def allocate (s : State) : State :=
  { s with
    shiftAlloc := BitVec.ofNat 17 (s.s2dConfig.maxShift.toNat + 1)
    depthAlloc := BitVec.ofNat 17 (s.s2dConfig.maxDepth.toNat + 1)
    status     := { s.status with tbl := true } }

/-- R140 for an implementation `cfg`. -/
def s2dbuild (cfg : Config) (s : State) : Result :=
  if s.s2dConfig.psf = 0#16 then fail .invalidConfig s
  else if cfg.shiftRam < s.s2dConfig.maxShift.toNat + 1 ∨ cfg.depthRam < s.s2dConfig.maxDepth.toNat + 1 then
    fail .allocFailure s
  else succeed (fill cfg (allocate s))

/-- R141 for an implementation `cfg`. -/
def s2dupdate (cfg : Config) (s : State) : Result :=
  if s.status.tbl = false then fail .invalidConfig s
  else if s.shiftAlloc.toNat < s.s2dConfig.maxShift.toNat + 1 ∨ s.depthAlloc.toNat < s.s2dConfig.maxDepth.toNat + 1 then
    fail .invalidConfig s
  else if s.s2dConfig.psf = 0#16 then fail .invalidConfig s
  else succeed (fill cfg s)

/-- S2DBUILD (R140). -/
def execS2dbuild (s : State) : Result := s2dbuild s.config s

/-- S2DUPDATE (R141). -/
def execS2dupdate (s : State) : Result := s2dupdate s.config s

/-- S2DFREE (R146): the table memories' content is not touched, and no longer observable (A7). -/
def execS2dfree (s : State) : Result :=
  succeed { s with shiftAlloc := 0#17, depthAlloc := 0#17, shiftCount := 0#17, depthCount := 0#17,
                   status := { s.status with tbl := false } }

end Sys2Proof.Machine
end

