-- ==== Sys2Proof/Machine/Yuv.lean ====
section
/-! DEFINITION. The YUV422 to RGB888 converter and the command YUV2RGB (spec/42_yuv2rgb.md R130 to R133). -/

namespace Sys2Proof.Machine

/-- `clamp255` (R8). -/
def clamp255 (n : Int) : Int := if n < 0 then 0 else if 255 < n then 255 else n

/-- One colour channel: `clamp255(floor(n / 100000))` as a byte (R131; A15). -/
def channel (n : Int) : Byte := BitVec.ofNat 8 (clamp255 (n.fdiv 100000)).toNat

/-- A chroma byte less its offset of 128 (R131: `U'`, `V'`). -/
def chroma (b : Byte) : Int := (b.toNat : Int) - 128

/-- `rgb(y, u, v)` (R131): the pixel's bytes R, G, B in address order. -/
def rgb (y u v : Byte) : List Byte :=
  [ channel (100000 * (y.toNat : Int) + 113983 * chroma v),
    channel (100000 * (y.toNat : Int) - 39466 * chroma u - 58060 * chroma v),
    channel (100000 * (y.toNat : Int) + 203211 * chroma u) ]

/-- A macropixel U, Y1, V, Y2 gives two pixels, the one for Y1 first (R132). -/
def macropixel (u y1 v y2 : Byte) : List Byte := rgb y1 u v ++ rgb y2 u v

/-- The bytes of the whole macropixels of `S`, and the 0 to 3 bytes left over (R130 step 8). -/
def macropixels : List Byte → List Byte × List Byte
  | u :: y1 :: v :: y2 :: bs =>
    let r := macropixels bs
    (macropixel u y1 v y2 ++ r.1, r.2)
  | left => ([], left)

/-- The YUV engine (R39, R130); at END the bytes left over are dropped (R133). -/
def engineYuv : Engine where
  restart c := { c with cy := [] }
  need c _ len := 6 * ((c.cy.length + len) / 4)
  run _ c last loss payload :=
    let r := macropixels (c.cy ++ payload)
    (r.1.map (emit8 loss), { c with cy := if last then [] else r.2 })

/-- YUV2RGB (R130). -/
def execYuv2rgb (frag : Frag) (loss : Bool) (len : Nat) (s : State) : Result :=
  parse s.config engineYuv frag loss len s

end Sys2Proof.Machine
end

