-- ==== Sys2Proof/Machine/Dispatch.lean ====
section
/-! DEFINITION. One arm per command (spec/30_encoding.md R73). -/

namespace Sys2Proof.Machine

def exec (i : Instr) (s : State) : Host.Outcome State Fault Refusal :=
  match i with
  | .beginp => Sys2Proof.Machine.execBeginp s
  | .parse11 frag loss len => Sys2Proof.Machine.execParse11 frag loss len s
  | .parse12 frag loss len => Sys2Proof.Machine.execParse12 frag loss len s
  | .parse6 frag loss len => Sys2Proof.Machine.execParse6 frag loss len s
  | .parse10 frag loss len => Sys2Proof.Machine.execParse10 frag loss len s
  | .yuv2rgb frag loss len => Sys2Proof.Machine.execYuv2rgb frag loss len s
  | .s2dbuild => Sys2Proof.Machine.execS2dbuild s
  | .s2dupdate => Sys2Proof.Machine.execS2dupdate s
  | .s2dfree => Sys2Proof.Machine.execS2dfree s
  | .shutdown => Sys2Proof.Machine.execShutdown s

end Sys2Proof.Machine
end

