-- ==== Sys2Proof/Machine/HostPort.lean ====
section
/-! DEFINITION. The host's side: the register space (spec/20_memory.md R52 to R54, spec/10_state.md R24 to R39) and the
host's own moves other than a command (spec/70_reset_and_hazards.md R192). -/

namespace Sys2Proof.Machine

/-- A register access R52 allows: 32 bits wide, aligned, below 0xC0000 (A10). -/
def legalAccess (offset bytes : Nat) : Bool :=
  bytes == 4 && offset % 4 == 0 && decide (offset < 0xC0000)

/-- Byte `i` of a carry buffer as its register shows it: 0 at and above its length (R38, R39). -/
def carryByte (c : List Byte) (i : Nat) : Byte := c.getD i 0#8

/-- `C12W(j)` (R38): bytes 4j to 4j+3 of the carry buffer, the lowest in bits 7:0. -/
def carryWord (c : List Byte) (j : Nat) : Word :=
  (carryByte c (4 * j)).setWidth 32 ||| ((carryByte c (4 * j + 1)).setWidth 32 <<< 8) |||
    ((carryByte c (4 * j + 2)).setWidth 32 <<< 16) ||| ((carryByte c (4 * j + 3)).setWidth 32 <<< 24)

/-- `ST11`, `ST6`, `ST10` (R35 to R37): bits 3:0 = `NB`, bits from 16 up = `ACC`. -/
def accumWord {w : Nat} (a : Accum w) : Word := a.nb.setWidth 32 ||| (a.acc.setWidth 32 <<< 16)

/-- `STYUV` (R39): bits 1:0 = `CLENY`, then `CY[0]`, `CY[1]`, `CY[2]` from bit 8 up. -/
def yuvWord (c : List Byte) : Word :=
  (BitVec.ofNat 2 c.length).setWidth 32 ||| ((carryByte c 0).setWidth 32 <<< 8) |||
    ((carryByte c 1).setWidth 32 <<< 16) ||| ((carryByte c 2).setWidth 32 <<< 24)

/-- Entry `i` through a table window: 0 at and above the allocation (R54). -/
def windowWord (t : List Half) (alloc : BitVec 17) (i : Nat) : Word :=
  if i < alloc.toNat then (t.getD i 0#16).setWidth 32 else 0#32

/-- The register block, offsets 0x00 to 0xFF (R24 to R39, R53): every other offset there reads 0 (R31). -/
def controlWord (cfg : Config) (s : State) (offset : Nat) : Word :=
  match offset with
  | 0x04 => s.status.word
  | 0x08 => s.srcBase
  | 0x0C => s.dstBase
  | 0x10 => s.dstCap
  | 0x14 => s.wr
  | 0x18 => s.boundBase
  | 0x1C => s.boundCap
  | 0x20 => s.s2dConfig.maxShift.setWidth 32
  | 0x24 => s.s2dConfig.maxDepth.setWidth 32
  | 0x28 => s.s2dConfig.minCutoff.setWidth 32
  | 0x2C => s.s2dConfig.maxCutoff.setWidth 32
  | 0x30 => s.s2dConfig.psf.setWidth 32
  | 0x34 => s.shiftCount.setWidth 32
  | 0x38 => s.depthCount.setWidth 32
  | 0x3C => s.shiftAlloc.setWidth 32
  | 0x40 => s.depthAlloc.setWidth 32
  | 0x44 => cfg.idValue
  | 0x60 => s.s2dConfig.cal0
  | 0x64 => s.s2dConfig.cal1
  | 0x68 => s.s2dConfig.cal2
  | 0x6C => s.s2dConfig.cal3
  | 0x70 => s.s2dConfig.cal4
  | 0x74 => s.s2dConfig.cal5
  | 0x78 => s.s2dConfig.cal6
  | 0x7C => s.s2dConfig.cal7
  | 0x80 => accumWord s.codec.u11
  | 0x84 => accumWord s.codec.u6
  | 0x88 => accumWord s.codec.u10
  | 0x8C => BitVec.ofNat 5 s.codec.c12.length |>.setWidth 32
  | 0x90 => yuvWord s.codec.cy
  | 0xA0 => carryWord s.codec.c12 0
  | 0xA4 => carryWord s.codec.c12 1
  | 0xA8 => carryWord s.codec.c12 2
  | 0xAC => carryWord s.codec.c12 3
  | 0xB0 => carryWord s.codec.c12 4
  | 0xB4 => carryWord s.codec.c12 5
  | _    => 0#32

/-- What a host read of the offset returns (R53, R54); `CMD` reads 0 (R27). -/
def regValue (cfg : Config) (s : State) (offset : Nat) : Word :=
  if 0x80000 ≤ offset then windowWord s.d2s s.depthAlloc ((offset - 0x80000) / 4)
  else if 0x40000 ≤ offset then windowWord s.s2d s.shiftAlloc ((offset - 0x40000) / 4)
  else controlWord cfg s offset

/-- The calibration record with one of its registers written: the upper half of a word written to a 16-bit
register is ignored (R28). Other offsets leave it as it is. -/
def writeS2dConfig (r : S2dConfig) (offset : Nat) (w : Word) : S2dConfig :=
  match offset with
  | 0x20 => { r with maxShift := w.setWidth 16 }
  | 0x24 => { r with maxDepth := w.setWidth 16 }
  | 0x28 => { r with minCutoff := w.setWidth 16 }
  | 0x2C => { r with maxCutoff := w.setWidth 16 }
  | 0x30 => { r with psf := w.setWidth 16 }
  | 0x60 => { r with cal0 := w }
  | 0x64 => { r with cal1 := w }
  | 0x68 => { r with cal2 := w }
  | 0x6C => { r with cal3 := w }
  | 0x70 => { r with cal4 := w }
  | 0x74 => { r with cal5 := w }
  | 0x78 => { r with cal6 := w }
  | 0x7C => { r with cal7 := w }
  | _    => r

/-- A host write to an offset other than `CMD` (R24, R28, R32): read-only, reserved and window offsets ignore it
(R25, R31, R54). -/
def writeReg (s : State) (offset : Nat) (w : Word) : State :=
  match offset with
  | 0x08 => { s with srcBase := w }
  | 0x0C => { s with dstBase := w }
  | 0x10 => { s with dstCap := w }
  | _    => { s with s2dConfig := writeS2dConfig s.s2dConfig offset w }

/-- The host gets a word back (A3). -/
def answer (w : Word) (s : State) : Result := .next { s with reads := s.reads ++ [w] }

/-- A host register read has no effect on the block (R52, R58). -/
def hostRegRead (cfg : Config) (offset bytes : Nat) (s : State) : Result :=
  if legalAccess offset bytes then answer (regValue cfg s offset) s else .refused .unsupportedAccess

/-- The host reads a byte of system memory by its own means (R192; A11, A12). -/
def hostMemRead (cfg : Config) (addr : Nat) (s : State) : Result :=
  if addr < 2 ^ cfg.addrW then answer ((s.mem.read addr).setWidth 32) s else .fault .noSuchAddress

/-- The host writes a byte of system memory by its own means (R192; A8). -/
def hostMemWrite (cfg : Config) (addr : Nat) (b : Byte) (s : State) : Result :=
  if addr < 2 ^ cfg.addrW then .next { s with mem := s.mem.write addr b } else .fault .noSuchAddress

/-- The platform resets the block between commands (R180; A9). -/
def platformReset (s : State) : Result := .next (resetBlock s)

end Sys2Proof.Machine
end

