-- ==== Sys2Proof/Machine/Command.lean ====
section
/-! DEFINITION. The host's write of `CMD` and its other moves (spec/10_state.md R27, spec/20_memory.md R52,
spec/70_reset_and_hazards.md R192). -/

namespace Sys2Proof.Machine

/-- A host write of `CMD` (R27): the command the word encodes, or BadCommand (R77). -/
def runCommand (w : Word) (s : State) : Result :=
  match Sys2Proof.decode w with
  | .ok i    => exec i s
  | .error _ => illegalCommand s

/-- A host register write (R52): `CMD` is at offset 0 (R27). -/
def hostRegWrite (offset bytes : Nat) (w : Word) (s : State) : Result :=
  if legalAccess offset bytes then
    if offset = 0 then runCommand w s else .next (writeReg s offset w)
  else .refused .unsupportedAccess

/-- One move of the host or the platform (R192). -/
def hostMove (m : HostMove) (s : State) : Result :=
  match m with
  | .regRead offset bytes    => hostRegRead s.config offset bytes s
  | .regWrite offset bytes w => hostRegWrite offset bytes w s
  | .memRead addr            => hostMemRead s.config addr s
  | .memWrite addr b         => hostMemWrite s.config addr b s
  | .reset                   => platformReset s

/-- Where the next move is: the oldest pending one, taken from the list (A1); with none pending the block is
quiescent and nothing changes (R41, R192; A2). -/
def nextMove (s : State) : Result :=
  match s.host with
  | []        => .next s
  | m :: rest => hostMove m { s with host := rest }

end Sys2Proof.Machine
end

