-- ==== Sys2Proof/Machine/Step.lean ====
section
/-! DEFINITION. One step: the host's oldest pending move (spec/70_reset_and_hazards.md R192; A1). -/

namespace Sys2Proof.Machine

/-- One step of the machine: one move of the host (R192), a command included (R60). -/
def step (s : State) : Host.Outcome State Fault Refusal := nextMove s

/-- `s` with the host's write of the command word `w` to `CMD` as its very next move (A1). -/
def State.withFetchWord (s : State) (_nbits w : Nat) : State :=
  { s with host := .regWrite 0 4 (BitVec.ofNat 32 w) :: s.host }

end Sys2Proof.Machine
end

