-- ==== Sys2Proof/Safety.lean ====
section
/-! DEFINITION. What claims speak of: the invariants spec/10_state.md states (R25, R26, R29, R35 to R39), the five PARSE*
commands as one family (spec/30_encoding.md R70), the stream reading of R102, and messages split into packets (R115). -/

namespace Sys2Proof.Machine

/-! ## Invariants -/

/-- R25: the cursor is inside the destination, the destination inside the address space, the cursor even. -/
abbrev sessionInv (s : State) : Prop :=
  s.wr.toNat ≤ s.boundCap.toNat ∧ s.boundBase.toNat + s.boundCap.toNat ≤ 2 ^ 32 ∧ s.wr.toNat % 2 = 0

/-- R29: counts within allocations within capacities, `TBL` exactly when something is allocated; R33: the entries
below the allocations exist. -/
abbrev tableInv (s : State) : Prop :=
  s.shiftCount.toNat ≤ s.shiftAlloc.toNat ∧ s.shiftAlloc.toNat ≤ 65536 ∧
  s.depthCount.toNat ≤ s.depthAlloc.toNat ∧ s.depthAlloc.toNat ≤ 65536 ∧
  (s.status.tbl = true ↔ 0 < s.shiftAlloc.toNat) ∧
  s.shiftAlloc.toNat ≤ s.s2d.length ∧ s.depthAlloc.toNat ≤ s.d2s.length

/-- R35 to R37: fewer residual bits than a sample has, an even number of them where the sample width is even, and
a value that fits them. -/
abbrev accumInv (bpp : Nat) {w : Nat} (a : Accum w) : Prop :=
  a.nb.toNat < bpp ∧ (bpp % 2 = 0 → a.nb.toNat % 2 = 0) ∧ a.acc.toNat < 2 ^ a.nb.toNat

/-- R35 to R39: the states an engine can be in. -/
abbrev codecInv (c : Codec) : Prop :=
  accumInv 11 c.u11 ∧ accumInv 6 c.u6 ∧ accumInv 10 c.u10 ∧ c.c12.length ≤ 23 ∧ c.cy.length ≤ 3

/-- R26, R165: `CERR` is 0 while `CORRUPT` is 0, and otherwise the one codec error there is (R117); `ERR` never
holds BadPacketFormat. -/
abbrev statusInv (t : Status) : Prop :=
  t.cerr = (if t.corrupt then ResultCode.outputBufferOverflow else ResultCode.ok) ∧
  t.err ≠ ResultCode.badPacketFormat

/-- System memory is in canonical form and holds no byte outside the address space (R50). -/
abbrev memInv (m : Memory) : Prop := m.wf ∧ ∀ c ∈ m, c.1 < 2 ^ 32

/-- The invariant of the machine. -/
abbrev stateInv (s : State) : Prop :=
  sessionInv s ∧ tableInv s ∧ codecInv s.codec ∧ statusInv s.status ∧ memInv s.mem

/-! ## The PARSE* commands -/

/-- The five PARSE* operations (R70). -/
inductive ParseOp where
  | u11
  | u12
  | u6
  | u10
  | yuv
deriving DecidableEq, Repr

/-- The command of a PARSE* operation. -/
def ParseOp.instr : ParseOp → Frag → Bool → Nat → Instr
  | .u11 => .parse11
  | .u12 => .parse12
  | .u6  => .parse6
  | .u10 => .parse10
  | .yuv => .yuv2rgb

/-- Its engine. -/
def ParseOp.engine : ParseOp → Engine
  | .u11 => engine11 Config.lub
  | .u12 => engine12 Config.lub
  | .u6  => engine6 Config.lub
  | .u10 => engine10 Config.lub
  | .yuv => engineYuv

/-- The state with the codec state of one engine taken from `d` (R40). -/
def ParseOp.graft : ParseOp → Codec → Codec → Codec
  | .u11, d, c => { c with u11 := d.u11 }
  | .u12, d, c => { c with c12 := d.c12 }
  | .u6,  d, c => { c with u6 := d.u6 }
  | .u10, d, c => { c with u10 := d.u10 }
  | .yuv, d, c => { c with cy := d.cy }

/-- The codec state with which the operation runs: step 3 of R100 done. -/
def ParseOp.start (k : ParseOp) (frag : Frag) (s : State) : Codec :=
  if hasBegin frag then k.engine.restart s.codec else s.codec

/-- The bytes the operation will emit (R100 step 6). -/
def ParseOp.need (k : ParseOp) (frag : Frag) (len : Nat) (s : State) : Nat :=
  k.engine.need (k.start frag s) (hasEnd frag) len

/-- What the operation emits and the codec state after, for the payload in memory (R100 step 8). -/
def ParseOp.output (k : ParseOp) (frag : Frag) (loss : Bool) (len : Nat) (s : State) : List Byte × Codec :=
  k.engine.run (lut s) (k.start frag s) (hasEnd frag) loss (s.mem.readBytes s.srcBase.toNat len)

/-- Checks 2 and 4 of R100 pass: the source range does not wrap and the message is not lost. -/
abbrev parseRuns (frag : Frag) (len : Nat) (s : State) : Prop :=
  s.srcBase.toNat + len ≤ 2 ^ 32 ∧ (hasBegin frag = true ∨ s.status.corrupt = false)

/-- Every byte of the source range is admitted for reading (R57). -/
abbrev sourceAdmitted (len : Nat) (s : State) : Prop :=
  ∀ a, s.srcBase.toNat ≤ a → a < s.srcBase.toNat + len → mayRead s.config a = true

/-- Every byte of the range of `n` bytes at the cursor is admitted for writing (R57). -/
abbrev destinationAdmitted (n : Nat) (s : State) : Prop :=
  ∀ a, s.boundBase.toNat + s.wr.toNat ≤ a → a < s.boundBase.toNat + s.wr.toNat + n → mayWrite s.config a = true

/-! ## The stream reading of R102 -/

/-- Bit `j` of the packed stream: bit `7 - (j mod 8)` of byte `j div 8`; past the end, 0. -/
def streamBit (bs : List Byte) (j : Nat) : Nat :=
  if (bs.getD (j / 8) 0#8).getLsbD (7 - j % 8) then 1 else 0

/-- The value of the `n` bits of the stream from bit `j` on, the first of them the most significant. -/
def streamValue (bs : List Byte) (j : Nat) : Nat → Nat
  | 0     => 0
  | n + 1 => 2 * streamValue bs j n + streamBit bs (j + n)

/-- Sample `k`: the bits `bpp*k` to `bpp*k + bpp - 1` of the stream. -/
def streamSample (bpp : Nat) (bs : List Byte) (k : Nat) : Nat := streamValue bs (bpp * k) bpp

/-- The first `n` samples of the stream. -/
def streamSamples (bpp n : Nat) (bs : List Byte) : List Nat := (List.range n).map (streamSample bpp bs)

/-! ## Messages (R114, R115) -/

/-- The flag of a packet from its place in the message: the first has BEGIN, the last END (R74). -/
def fragAt (first last : Bool) : Frag :=
  if first then (if last then .single else .begins) else (if last then .ends else .middle)

/-- What an engine makes of the payloads of a message, from the codec state it has at the first of them on. -/
def runMessage (e : Engine) (look : Nat → Half) (loss : Bool) (c : Codec) : List (List Byte) → List Byte × Codec
  | []           => ([], c)
  | [p]          => e.run look c true loss p
  | p :: q :: ps =>
    let r := e.run look c false loss p
    let t := runMessage e look loss r.2 (q :: ps)
    (r.1 ++ t.1, t.2)

/-- A message sent packet by packet, each from its own source address and of its own length (R181): the state after
its last command, if every command answered a next state with `STATUS.ERR` = 0. -/
def sendMessage (k : ParseOp) (loss first : Bool) : List (Word × Nat) → State → Option State
  | [], s => some s
  | (src, len) :: ps, s =>
    match exec (k.instr (fragAt first ps.isEmpty) loss len) { s with srcBase := src } with
    | .next t     => if t.status.err = .ok then sendMessage k loss false ps t else none
    | .fault _    => none
    | .refused _  => none

/-- The payload bytes of the packets, in order, as they stand in memory. -/
def payloadOf (m : Memory) (ps : List (Word × Nat)) : List Byte :=
  ps.flatMap fun p => m.readBytes p.1.toNat p.2

/-! ## Tables (R142 to R145) -/

/-- A shift of the loop's range that R142 calls valid, with its stored depth. -/
abbrev validAt (f : S2dConfig → Nat → Option Rat) (r : S2dConfig) (s d : Nat) : Prop :=
  1 ≤ s ∧ s < r.maxShift.toNat ∧ validDepth f r s = some d

/-- The depth function does not fall from a valid shift to a later valid one. -/
abbrev depthRises (f : S2dConfig → Nat → Option Rat) (r : S2dConfig) : Prop :=
  ∀ s s' d d', validAt f r s d → validAt f r s' d' → s < s' → d ≤ d'

/-- The depth function does not rise from a valid shift to a later valid one. -/
abbrev depthFalls (f : S2dConfig → Nat → Option Rat) (r : S2dConfig) : Prop :=
  ∀ s s' d d', validAt f r s d → validAt f r s' d' → s < s' → d' ≤ d

/-- Two states that differ at most in table entries at or above the allocations (R33, R34). -/
abbrev sameButSpareEntries (s t : State) : Prop :=
  t = { s with s2d := t.s2d, d2s := t.d2s } ∧
  (∀ i, i < s.shiftAlloc.toNat → s.s2d.getD i 0#16 = t.s2d.getD i 0#16) ∧
  (∀ i, i < s.depthAlloc.toNat → s.d2s.getD i 0#16 = t.d2s.getD i 0#16)

end Sys2Proof.Machine
end

