-- ==== Sys2Proof/Certificates/Slice0/Obligations.lean ====
section
/-! DEFINITION. The statements for the provers, each a Prop of its own; OBLIGATIONS.json lists them. -/

namespace Sys2Proof.Machine

/-! ### Shared wording of the statements -/

/-- The offsets of the 32-bit read-write registers (R24, R28). -/
def wordOffsets : List Nat :=
  [0x08, 0x0C, 0x10, 0x60, 0x64, 0x68, 0x6C, 0x70, 0x74, 0x78, 0x7C]

/-- The offsets of the 16-bit read-write registers (R28). -/
def halfOffsets : List Nat := [0x20, 0x24, 0x28, 0x2C, 0x30]

/-- Every offset of the register block that R24 to R39 name, `CMD` apart. -/
def registerOffsets : List Nat :=
  [0x04, 0x08, 0x0C, 0x10, 0x14, 0x18, 0x1C, 0x20, 0x24, 0x28, 0x2C, 0x30, 0x34, 0x38, 0x3C, 0x40, 0x44,
   0x60, 0x64, 0x68, 0x6C, 0x70, 0x74, 0x78, 0x7C, 0x80, 0x84, 0x88, 0x8C, 0x90, 0xA0, 0xA4, 0xA8, 0xAC, 0xB0, 0xB4]

/-- What is read back after a word is written to a read-write register: the upper half is ignored by a
16-bit register (R28). -/
def readBack (off : Nat) (w old : Word) : Word :=
  if off ∈ wordOffsets then w else if off ∈ halfOffsets then w &&& 0x0000FFFF#32 else old

/-- The stored value of a sample of an unpacker: R104's lookup for U11 and U12, the value itself for U6, U10. -/
def storedSample (k : ParseOp) (s : State) (v : Nat) : Half :=
  match k with
  | .u11 => if v < s.shiftCount.toNat then s.s2d.getD v 0#16 else 0#16
  | .u12 => if v < s.shiftCount.toNat then s.s2d.getD v 0#16 else 0#16
  | .u6  => BitVec.ofNat 16 v
  | .u10 => BitVec.ofNat 16 v
  | .yuv => 0#16

/-- The largest `need` of each PARSE* operation, at `LEN` = 65535 with the fullest codec state (R101, R110, R130). -/
def largestNeed : ParseOp → Nat
  | .u11 => 95326
  | .u12 => 87412
  | .u6  => 174762
  | .u10 => 104858
  | .yuv => 98304

/-- `clamp255(floor(q))` of a rational as a byte (R8, R131). -/
def clampByte (q : Rat) : Byte := BitVec.ofNat 8 (max 0 (min 255 q.floor)).toNat

end Sys2Proof.Machine

open Sys2Proof Sys2Proof.Machine

/-! ### Encoding -/

/-- R70, R73: decoding the word of a well-formed command gives it back. -/
def Obligations.DecodeEncodeRoundTrip : Prop :=
  ∀ i : Instr, i.wellFormed = true → decode (encode i) = .ok i

/-- R70, R73: a word that decodes is the word of the command it decodes to, which is well-formed. -/
def Obligations.EncodeDecodeRoundTrip : Prop :=
  ∀ (w : Word) (i : Instr), decode w = .ok i → i.wellFormed = true ∧ encode i = w

/-- R73: a word encodes a row exactly when `(w & mask) == match`, and decodes exactly when some row selects it. -/
def Obligations.DecodeFollowsOpTable : Prop :=
  ∀ w : Word,
    (∀ r ∈ opRows, (w &&& r.mask = r.pattern ↔ ∃ i, decode w = .ok i ∧ i.op = r.op)) ∧
    ((∃ i, decode w = .ok i) ↔ ∃ r ∈ opRows, w &&& r.mask = r.pattern)

/-- The command-word vectors of 95_test_vectors.md section 7. -/
def Obligations.SpecWordsDecode : Prop :=
  decode 0x00000001#32 = .ok .beginp ∧
  decode 0x00010001#32 = .error .strayOperand ∧
  decode 0x000B0032#32 = .ok (.parse11 .single false 11) ∧
  decode 0x000B0072#32 = .ok (.parse11 .single true 11) ∧
  decode 0x00170053#32 = .ok (.parse12 .begins true 23) ∧
  decode 0x00000002#32 = .ok (.parse11 .middle false 0) ∧
  decode 0x00000082#32 = .error .reservedBits ∧
  decode 0x00000000#32 = .error .unassignedOp ∧
  decode 0x00000007#32 = .error .unassignedOp ∧
  decode 0x0000000B#32 = .error .unassignedOp ∧
  decode 0x00000018#32 = .error .strayOperand ∧
  decode 0x0000000F#32 = .ok .shutdown

/-- R80's formula: `(len << 16) | (loss << 6) | (frag << 4) | OP`, and `OP` alone where the command has no operand. -/
def Obligations.EncodeIsShiftFormula : Prop :=
  (∀ (k : ParseOp) (frag : Frag) (loss : Bool) (len : Nat), len < 65536 →
    (encode (k.instr frag loss len)).toNat =
      len * 2 ^ 16 + (if loss then 2 ^ 6 else 0) + frag.bits.toNat * 2 ^ 4 + (k.instr frag loss len).op.toNat) ∧
  (∀ i : Instr, i.len? = none → (encode i).toNat = i.op.toNat)

/-- R74: bit 4 of the word is the BEGIN bit of the flag, bit 5 its END bit. -/
def Obligations.FragBitsOfWord : Prop :=
  ∀ (k : ParseOp) (frag : Frag) (loss : Bool) (len : Nat),
    (encode (k.instr frag loss len)).getLsbD 4 = hasBegin frag ∧
    (encode (k.instr frag loss len)).getLsbD 5 = hasEnd frag ∧
    (encode (k.instr frag loss len)).getLsbD 6 = loss

/-! ### The step -/

/-- R27, R192: when the host's next move writes `CMD` with a word that decodes, the step is that command on the state
with the move taken; `withFetchWord` puts such a move first. How moves come is the model's choice (A1). -/
def Obligations.StepRunsDecodedInstruction : Prop :=
  (∀ (s : State) (w : Word) (i : Instr) (rest : List HostMove),
    s.host = .regWrite 0 4 w :: rest → decode w = .ok i → step s = exec i { s with host := rest }) ∧
  (∀ (s : State) (n : Nat) (i : Instr), decode (BitVec.ofNat 32 n) = .ok i → step (s.withFetchWord 32 n) = exec i s)

/-- R77: executing a word that no row selects changes nothing but `STATUS.ERR`, which becomes BadCommand. -/
def Obligations.IllegalWordSetsBadCommand : Prop :=
  ∀ (s : State) (w : Word), (∀ r ∈ opRows, ¬ w &&& r.mask = r.pattern) →
    runCommand w s = .next { s with status := { s.status with err := .badCommand } }

/-! ### The host's registers -/

/-- R52, R58: a register read changes nothing of the block; the host gets the register's value (`reads` is the
model's own, A3); `CMD` reads 0 (R27). -/
def Obligations.RegisterReadHasNoSideEffect : Prop :=
  ∀ (s : State) (off : Nat) (rest : List HostMove),
    s.host = .regRead off 4 :: rest → off % 4 = 0 → off < 0xC0000 →
    step s = .next { s with host := rest, reads := s.reads ++ [regValue Config.lub s off] } ∧
    regValue Config.lub s 0 = 0#32

/-- R24, R28, R32: a host write to any offset but `CMD` takes effect at once, and reads back (the upper half of a
16-bit register as 0); every other offset, and every read-only, reserved or window offset written to, reads as before. -/
def Obligations.RegisterWriteReadsBack : Prop :=
  ∀ (s : State) (off : Nat) (w : Word) (rest : List HostMove),
    s.host = .regWrite off 4 w :: rest → off % 4 = 0 → off < 0xC0000 → off ≠ 0 →
    ∃ t, step s = .next t ∧ t.host = rest ∧
      ∀ off', regValue Config.lub t off' =
        if off' = off then readBack off w (regValue Config.lub s off) else regValue Config.lub s off'

/-- R25, R31, R53, R54: a host write to a read-only, reserved or window offset changes nothing. -/
def Obligations.ReadOnlyOffsetsIgnoreWrites : Prop :=
  ∀ (s : State) (off : Nat) (w : Word) (rest : List HostMove),
    s.host = .regWrite off 4 w :: rest → off % 4 = 0 → off < 0xC0000 → off ≠ 0 →
    off ∉ wordOffsets → off ∉ halfOffsets → step s = .next { s with host := rest }

/-- R24, R28: a host write to any offset but `CMD` completes and changes the register at that offset alone, each by its own
offset: the operand registers and `S2D_CAL0` to `S2D_CAL7` take the word, `S2D_MAX_SHIFT` to `S2D_PSF` its lower half. Nothing
else changes, whatever the offset: the session, `STATUS`, the tables, the engines, system memory. -/
def Obligations.RegisterWriteFrame : Prop :=
  ∀ (s : State) (off : Nat) (w : Word) (rest : List HostMove),
    s.host = .regWrite off 4 w :: rest → off % 4 = 0 → off < 0xC0000 → off ≠ 0 →
    let r := s.s2dConfig
    let half : Half := BitVec.ofNat 16 (w.toNat % 2 ^ 16)
    step s = .next
      { s with
        host := rest
        srcBase := if off = 0x08 then w else s.srcBase
        dstBase := if off = 0x0C then w else s.dstBase
        dstCap := if off = 0x10 then w else s.dstCap
        s2dConfig :=
          { maxShift  := if off = 0x20 then half else r.maxShift
            maxDepth  := if off = 0x24 then half else r.maxDepth
            minCutoff := if off = 0x28 then half else r.minCutoff
            maxCutoff := if off = 0x2C then half else r.maxCutoff
            psf       := if off = 0x30 then half else r.psf
            cal0 := if off = 0x60 then w else r.cal0
            cal1 := if off = 0x64 then w else r.cal1
            cal2 := if off = 0x68 then w else r.cal2
            cal3 := if off = 0x6C then w else r.cal3
            cal4 := if off = 0x70 then w else r.cal4
            cal5 := if off = 0x74 then w else r.cal5
            cal6 := if off = 0x78 then w else r.cal6
            cal7 := if off = 0x7C then w else r.cal7 } }

/-- R52, U6: a register access that is not a 32-bit access to an aligned offset below 0xC0000 is refused. -/
def Obligations.UnsupportedAccessRefused : Prop :=
  ∀ (s : State) (off bytes : Nat) (w : Word) (rest : List HostMove),
    bytes ≠ 4 ∨ off % 4 ≠ 0 ∨ 0xC0000 ≤ off →
    (s.host = .regRead off bytes :: rest → step s = .refused .unsupportedAccess) ∧
    (s.host = .regWrite off bytes w :: rest → step s = .refused .unsupportedAccess)

/-- R50, R192: the host's own read and write of a byte of system memory. -/
def Obligations.HostMemoryMoves : Prop :=
  ∀ (s : State) (a : Nat) (b : Byte) (rest : List HostMove), stateInv s → a < 2 ^ 32 →
    (s.host = .memRead a :: rest →
      step s = .next { s with host := rest, reads := s.reads ++ [(s.mem.read a).setWidth 32] }) ∧
    (s.host = .memWrite a b :: rest →
      ∃ m, step s = .next { s with host := rest, mem := m } ∧ ∀ x, m.read x = if x = a then b else s.mem.read x)

/-- R180: reset puts the block at its reset values and does not touch system memory. That it keeps the model's own fields
`memAdmit`, `host` and `reads` is log entry A9's choice; that the table lists, whose content R34 and U3 leave unspecified, are
empty afterwards is log entry A7's. -/
def Obligations.ResetMove : Prop :=
  ∀ (s : State) (rest : List HostMove), s.host = .reset :: rest →
    step s = .next { State.reset with mem := s.mem, memAdmit := s.memAdmit, host := rest, reads := s.reads }

/-- R42: after reset every offset reads 0 but `ID`, which reads `ID_VALUE`, on every platform. -/
def Obligations.ResetRegistersRead : Prop :=
  ∀ (regions : List Region) (off : Nat),
    regValue Config.lub (State.resetOn regions) off = if off = 0x44 then 0x4C554201#32 else 0#32

/-- R24, R25, R28, R29, R30, R31, R53: what each register other than `STATUS` and the engines' reads as, in any state; the
16-bit and 17-bit registers read with zeros above; every offset below the windows that is no register reads 0. -/
def Obligations.RegisterReadValues : Prop :=
  ∀ s : State,
    let v := regValue Config.lub s
    (v 0x08 = s.srcBase ∧ v 0x0C = s.dstBase ∧ v 0x10 = s.dstCap) ∧
    (v 0x14 = s.wr ∧ v 0x18 = s.boundBase ∧ v 0x1C = s.boundCap) ∧
    ((v 0x20).toNat = s.s2dConfig.maxShift.toNat ∧ (v 0x24).toNat = s.s2dConfig.maxDepth.toNat ∧
      (v 0x28).toNat = s.s2dConfig.minCutoff.toNat ∧ (v 0x2C).toNat = s.s2dConfig.maxCutoff.toNat ∧
      (v 0x30).toNat = s.s2dConfig.psf.toNat) ∧
    ((v 0x34).toNat = s.shiftCount.toNat ∧ (v 0x38).toNat = s.depthCount.toNat ∧
      (v 0x3C).toNat = s.shiftAlloc.toNat ∧ (v 0x40).toNat = s.depthAlloc.toNat) ∧
    v 0x44 = 0x4C554201#32 ∧
    (v 0x60 = s.s2dConfig.cal0 ∧ v 0x64 = s.s2dConfig.cal1 ∧ v 0x68 = s.s2dConfig.cal2 ∧ v 0x6C = s.s2dConfig.cal3 ∧
      v 0x70 = s.s2dConfig.cal4 ∧ v 0x74 = s.s2dConfig.cal5 ∧ v 0x78 = s.s2dConfig.cal6 ∧ v 0x7C = s.s2dConfig.cal7) ∧
    ∀ off, off < 0x40000 → off ∉ registerOffsets → v off = 0#32

/-- R54: the table windows. -/
def Obligations.TableWindows : Prop :=
  ∀ (s : State) (i : Nat), i < 65536 →
    regValue Config.lub s (0x40000 + 4 * i) =
      (if i < s.shiftAlloc.toNat then (s.s2d.getD i 0#16).setWidth 32 else 0#32) ∧
    regValue Config.lub s (0x80000 + 4 * i) =
      (if i < s.depthAlloc.toNat then (s.d2s.getD i 0#16).setWidth 32 else 0#32)

/-- R38: byte `C12[i]` stands in bits `8*(i mod 4) + 7 : 8*(i mod 4)` of `C12W(i div 4)`, 0 at and above `CLEN12`, which
`ST12` holds. -/
def Obligations.CarryRegisters : Prop :=
  ∀ s : State, codecInv s.codec →
    (regValue Config.lub s 0x8C).toNat = s.codec.c12.length ∧
    ∀ i, i < 24 → (regValue Config.lub s (0xA0 + 4 * (i / 4))).extractLsb' (8 * (i % 4)) 8 =
      if i < s.codec.c12.length then s.codec.c12.getD i 0#8 else 0#8

/-- R35, R36, R37, R39: `ST11`, `ST6`, `ST10` hold `NB` in bits 3:0 and `ACC` from bit 16 up; `STYUV` holds `CLENY` and the
three bytes of `CY`, each 0 at and above `CLENY`. -/
def Obligations.EngineRegisters : Prop :=
  ∀ s : State, codecInv s.codec →
    (regValue Config.lub s 0x80).toNat = s.codec.u11.nb.toNat + 2 ^ 16 * s.codec.u11.acc.toNat ∧
    (regValue Config.lub s 0x84).toNat = s.codec.u6.nb.toNat + 2 ^ 16 * s.codec.u6.acc.toNat ∧
    (regValue Config.lub s 0x88).toNat = s.codec.u10.nb.toNat + 2 ^ 16 * s.codec.u10.acc.toNat ∧
    (regValue Config.lub s 0x90).toNat = s.codec.cy.length + 2 ^ 8 * (s.codec.cy.getD 0 0#8).toNat +
      2 ^ 16 * (s.codec.cy.getD 1 0#8).toNat + 2 ^ 24 * (s.codec.cy.getD 2 0#8).toNat

/-- R26: the fields of `STATUS` in the word the host reads, the result codes by the numbers R160 gives them. -/
def Obligations.StatusRegister : Prop :=
  ∀ s : State,
    let code (e : ResultCode) : Nat :=
      match e with
      | .ok                   => 0
      | .outputBufferOverflow => 1
      | .badPacketFormat      => 2
      | .invalidConfig        => 3
      | .allocFailure         => 4
      | .badCommand           => 5
    (regValue Config.lub s 0x04).toNat =
      code s.status.err + (if s.status.corrupt then 2 ^ 4 else 0) + (if s.status.bound then 2 ^ 5 else 0) +
      (if s.status.tbl then 2 ^ 6 else 0) + 2 ^ 8 * code s.status.cerr

/-! ### Session commands -/

/-- R90: BEGINP. -/
def Obligations.BeginpBindsDestination : Prop :=
  ∀ s : State, exec .beginp s =
    if s.dstBase.toNat + s.dstCap.toNat > 2 ^ 32 then
      .next { s with status := { s.status with err := .badCommand } }
    else
      .next { s with boundBase := s.dstBase, boundCap := s.dstCap, wr := 0#32,
                     status := { s.status with bound := true, err := .ok } }

/-- R92: SHUTDOWN. -/
def Obligations.ShutdownResetsSessionAndEngines : Prop :=
  ∀ s : State, exec .shutdown s =
    .next { s with boundBase := 0#32, boundCap := 0#32, wr := 0#32,
                   status := { err := .ok, corrupt := false, bound := false, tbl := s.status.tbl, cerr := .ok },
                   codec := { u11 := ⟨0#4, 0#10⟩, c12 := [], u6 := ⟨0#4, 0#4⟩, u10 := ⟨0#4, 0#8⟩, cy := [] } }

/-! ### The common PARSE* sequence -/

/-- R100 step 2, R56, R166: a source range that would wrap is BadCommand, and nothing else changes. -/
def Obligations.SourceWrapIsBadCommand : Prop :=
  ∀ (k : ParseOp) (frag : Frag) (loss : Bool) (len : Nat) (s : State),
    s.srcBase.toNat + len > 2 ^ 32 →
    exec (k.instr frag loss len) s = .next { s with status := { s.status with err := .badCommand } }

/-- R100 step 4, R165: while `CORRUPT` is 1 a PARSE* command without the BEGIN bit fails with `CERR`, and nothing else
changes. -/
def Obligations.CorruptRejectsUntilBegin : Prop :=
  ∀ (k : ParseOp) (frag : Frag) (loss : Bool) (len : Nat) (s : State),
    s.srcBase.toNat + len ≤ 2 ^ 32 → hasBegin frag = false → s.status.corrupt = true →
    exec (k.instr frag loss len) s = .next { s with status := { s.status with err := s.status.cerr } }

/-- R100 steps 3 and 7, R161, R165: a command that would emit more than fits writes no byte, keeps the BEGIN reset, and
sets `CORRUPT`, `CERR` and `ERR`. -/
def Obligations.OverflowWritesNothing : Prop :=
  ∀ (k : ParseOp) (frag : Frag) (loss : Bool) (len : Nat) (s : State),
    parseRuns frag len s → sourceAdmitted len s → s.wr.toNat + k.need frag len s > s.boundCap.toNat →
    exec (k.instr frag loss len) s =
      .next { s with codec := k.start frag s,
                     status := { s.status with err := .outputBufferOverflow, corrupt := true,
                                               cerr := .outputBufferOverflow } }

/-- R57, R100: a PARSE* command stops with a fault exactly when it reads a source range not wholly admitted, or is about
to write a range not wholly admitted; it is never refused. -/
def Obligations.ParseFaultsExactlyWhenUnadmitted : Prop :=
  ∀ (k : ParseOp) (frag : Frag) (loss : Bool) (len : Nat) (s : State), stateInv s →
    ((exec (k.instr frag loss len) s = .fault .sourceNotAdmitted ↔ parseRuns frag len s ∧ ¬ sourceAdmitted len s) ∧
     (exec (k.instr frag loss len) s = .fault .destinationNotAdmitted ↔
        parseRuns frag len s ∧ sourceAdmitted len s ∧ s.wr.toNat + k.need frag len s ≤ s.boundCap.toNat ∧
        ¬ destinationAdmitted (k.need frag len s) s) ∧
     exec (k.instr frag loss len) s ≠ .fault .noSuchAddress ∧
     ∀ r, exec (k.instr frag loss len) s ≠ .refused r)

/-- R100: where the checks pass and the buffers are admitted, a PARSE* command completes: the engine's bytes stand from
`BOUND_BASE + WR` on, `WR` has advanced by `need`, the engine has its new state, `ERR` is 0, and nothing else changed. -/
def Obligations.ParseCompletes : Prop :=
  ∀ (k : ParseOp) (frag : Frag) (loss : Bool) (len : Nat) (s : State), stateInv s →
    parseRuns frag len s → sourceAdmitted len s → s.wr.toNat + k.need frag len s ≤ s.boundCap.toNat →
    destinationAdmitted (k.need frag len s) s →
    exec (k.instr frag loss len) s =
      .next { s with mem := s.mem.writeBytes (s.boundBase.toNat + s.wr.toNat) (k.output frag loss len s).1,
                     codec := (k.output frag loss len s).2,
                     wr := s.wr + BitVec.ofNat 32 (k.need frag len s),
                     status := { s.status with err := .ok, corrupt := false, cerr := .ok } } ∧
    s.wr.toNat + k.need frag len s < 2 ^ 32

/-- R101, R110, R130: `need` is the number of bytes the engine emits, for the formulas those rules give it. -/
def Obligations.NeedIsExact : Prop :=
  ∀ (k : ParseOp) (c : Codec) (last loss : Bool) (look : Nat → Half) (payload : List Byte), codecInv c →
    (k.engine.run look c last loss payload).1.length = k.engine.need c last payload.length ∧
    k.engine.need c last payload.length =
      (let flush (bpp nb : Nat) := if last = true ∧ (nb + 8 * payload.length) % bpp ≠ 0 then 1 else 0
       let n12 := c.c12.length + payload.length
       match k with
       | .u11 => 2 * ((c.u11.nb.toNat + 8 * payload.length) / 11 + flush 11 c.u11.nb.toNat)
       | .u6  => 2 * ((c.u6.nb.toNat + 8 * payload.length) / 6 + flush 6 c.u6.nb.toNat)
       | .u10 => 2 * ((c.u10.nb.toNat + 8 * payload.length) / 10 + flush 10 c.u10.nb.toNat)
       | .u12 => 2 * (16 * (n12 / 24) + if last = true then (2 * (n12 % 24) + 2) / 3 else 0)
       | .yuv => 6 * ((c.cy.length + payload.length) / 4))

/-- R101, R110, R130: the largest `need` of a command: 174762 bytes of any engine, 87412 of U12, 98304 of YUV; no command
needs more, and each engine has a command that needs as much. -/
def Obligations.LargestNeed : Prop :=
  (∀ (k : ParseOp) (frag : Frag) (len : Nat) (s : State), codecInv s.codec → len < 65536 →
    k.need frag len s ≤ largestNeed k) ∧
  (∀ k : ParseOp, ∃ (frag : Frag) (len : Nat) (s : State), stateInv s ∧ len < 65536 ∧ k.need frag len s = largestNeed k)

/-- R100 step 3, R116: with the BEGIN bit, what the command does depends neither on the engine's codec state before nor
on `CORRUPT` and `CERR`. -/
def Obligations.BeginForgetsCodecState : Prop :=
  ∀ (k : ParseOp) (frag : Frag) (loss : Bool) (len : Nat) (s : State) (d : Codec) (b : Bool) (e : ResultCode),
    hasBegin frag = true → s.srcBase.toNat + len ≤ 2 ^ 32 →
    exec (k.instr frag loss len) { s with codec := k.graft d s.codec, status := { s.status with corrupt := b, cerr := e } }
      = exec (k.instr frag loss len) s

/-- R75, R108: with `LOSS` the command answers the same state but that every byte it writes is 0. -/
def Obligations.LossZeroesOutput : Prop :=
  ∀ (k : ParseOp) (frag : Frag) (len : Nat) (s t : State), stateInv s →
    exec (k.instr frag false len) s = .next t →
    ∃ u, exec (k.instr frag true len) s = .next u ∧ u = { t with mem := u.mem } ∧
      ∀ a, u.mem.read a =
        if s.boundBase.toNat + s.wr.toNat ≤ a ∧ a < s.boundBase.toNat + t.wr.toNat then 0#8 else s.mem.read a

/-- R40, R188: a PARSE* command of one engine neither depends on the other engines' codec states nor changes them. -/
def Obligations.EnginesAreDisjoint : Prop :=
  ∀ (k : ParseOp) (frag : Frag) (loss : Bool) (len : Nat) (s t : State) (d : Codec),
    exec (k.instr frag loss len) s = .next t →
    k.graft t.codec s.codec = t.codec ∧
    exec (k.instr frag loss len) { s with codec := k.graft s.codec d } =
      .next { t with codec := k.graft t.codec d }

/-- R40, R51, R161, U4: the frame of a PARSE* command: only `WR`, `ERR`, `CORRUPT`, `CERR`, the engine's state and the
bytes from `BOUND_BASE` + the old `WR` up to `BOUND_BASE` + the new `WR` change; a command that fails moves neither. -/
def Obligations.ParseFrame : Prop :=
  ∀ (k : ParseOp) (frag : Frag) (loss : Bool) (len : Nat) (s t : State), stateInv s →
    exec (k.instr frag loss len) s = .next t →
    t = { s with mem := t.mem, codec := k.graft t.codec s.codec, wr := t.wr,
                 status := { s.status with err := t.status.err, corrupt := t.status.corrupt,
                                           cerr := t.status.cerr } } ∧
    s.wr.toNat ≤ t.wr.toNat ∧
    (∀ a, ¬ (s.boundBase.toNat + s.wr.toNat ≤ a ∧ a < s.boundBase.toNat + t.wr.toNat) →
      t.mem.read a = s.mem.read a) ∧
    (t.status.err ≠ .ok → t.mem = s.mem ∧ t.wr = s.wr)

/-! ### The accumulator engines -/

/-- R102: over a whole message the accumulator machine takes the samples of the stream reading, for any sample width:
whole samples as bytes arrive, the residual bits left in `NB`, `ACC`, and at the end (R107) one zero-filled sample. -/
def Obligations.AccumulatorReadsStream : Prop :=
  ∀ (bpp : Nat) (bs : List Byte), 0 < bpp →
    accPacket Config.lub bpp 0 0 false bs =
      (streamSamples bpp (8 * bs.length / bpp) bs, 8 * bs.length % bpp,
        streamValue bs (bpp * (8 * bs.length / bpp)) (8 * bs.length % bpp)) ∧
    accPacket Config.lub bpp 0 0 true bs = (streamSamples bpp ((8 * bs.length + bpp - 1) / bpp) bs, 0, 0)

/-- R103: the eleven states of U11, the phase after any number of bytes, and the return to phase 0 after 11 bytes with 8
samples. -/
def Obligations.ElevenStatesOfU11 : Prop :=
  (∀ (a : Nat) (b : Byte),
    accByte 11 0 0 b = ([], 8, b.toNat) ∧
    (a < 2 ^ 8 → accByte 11 8 a b = ([a * 8 + b.toNat / 32], 5, b.toNat % 32)) ∧
    (a < 2 ^ 5 → accByte 11 5 a b = ([a * 64 + b.toNat / 4], 2, b.toNat % 4)) ∧
    (a < 2 ^ 2 → accByte 11 2 a b = ([], 10, a * 256 + b.toNat)) ∧
    (a < 2 ^ 10 → accByte 11 10 a b = ([a * 2 + b.toNat / 128], 7, b.toNat % 128)) ∧
    (a < 2 ^ 7 → accByte 11 7 a b = ([a * 16 + b.toNat / 16], 4, b.toNat % 16)) ∧
    (a < 2 ^ 4 → accByte 11 4 a b = ([a * 128 + b.toNat / 2], 1, b.toNat % 2)) ∧
    (a < 2 ^ 1 → accByte 11 1 a b = ([], 9, a * 256 + b.toNat)) ∧
    (a < 2 ^ 9 → accByte 11 9 a b = ([a * 4 + b.toNat / 64], 6, b.toNat % 64)) ∧
    (a < 2 ^ 6 → accByte 11 6 a b = ([a * 32 + b.toNat / 8], 3, b.toNat % 8)) ∧
    (a < 2 ^ 3 → accByte 11 3 a b = ([a * 256 + b.toNat], 0, 0))) ∧
  (∀ bs : List Byte, (accBytes 11 0 0 bs).2.1 = 8 * (bs.length % 11) % 11) ∧
  (∀ bs : List Byte, bs.length = 11 → (accBytes 11 0 0 bs).1.length = 8 ∧ (accBytes 11 0 0 bs).2 = (0, 0))

/-- R105: the three states of U6, and the return to phase 0 after 3 bytes with 4 samples. -/
def Obligations.ThreeStatesOfU6 : Prop :=
  (∀ (a : Nat) (b : Byte),
    accByte 6 0 0 b = ([b.toNat / 4], 2, b.toNat % 4) ∧
    (a < 2 ^ 2 → accByte 6 2 a b = ([a * 16 + b.toNat / 16], 4, b.toNat % 16)) ∧
    (a < 2 ^ 4 → accByte 6 4 a b = ([a * 4 + b.toNat / 64, b.toNat % 64], 0, 0))) ∧
  (∀ bs : List Byte, (accBytes 6 0 0 bs).2.1 = 8 * (bs.length % 3) % 6) ∧
  (∀ bs : List Byte, bs.length = 3 → (accBytes 6 0 0 bs).1.length = 4 ∧ (accBytes 6 0 0 bs).2 = (0, 0))

/-- R106: the five states of U10, and the return to phase 0 after 5 bytes with 4 samples. -/
def Obligations.FiveStatesOfU10 : Prop :=
  (∀ (a : Nat) (b : Byte),
    accByte 10 0 0 b = ([], 8, b.toNat) ∧
    (a < 2 ^ 8 → accByte 10 8 a b = ([a * 4 + b.toNat / 64], 6, b.toNat % 64)) ∧
    (a < 2 ^ 6 → accByte 10 6 a b = ([a * 16 + b.toNat / 16], 4, b.toNat % 16)) ∧
    (a < 2 ^ 4 → accByte 10 4 a b = ([a * 64 + b.toNat / 4], 2, b.toNat % 4)) ∧
    (a < 2 ^ 2 → accByte 10 2 a b = ([a * 256 + b.toNat], 0, 0))) ∧
  (∀ bs : List Byte, (accBytes 10 0 0 bs).2.1 = 8 * (bs.length % 5) % 10) ∧
  (∀ bs : List Byte, bs.length = 5 → (accBytes 10 0 0 bs).1.length = 4 ∧ (accBytes 10 0 0 bs).2 = (0, 0))

/-! ### The 12-bit engine -/

/-- R110, R111: the 12-bit groups and the tail are the stream reading with 12-bit samples; without END the bytes after the
last whole group are carried. -/
def Obligations.GroupsReadStream : Prop :=
  ∀ bs : List Byte,
    packet12 Config.lub bs false = (streamSamples 12 (16 * (bs.length / 24)) bs, bs.drop (24 * (bs.length / 24))) ∧
    packet12 Config.lub bs true = (streamSamples 12 ((8 * bs.length + 11) / 12) bs, [])

/-! ### What stands in memory after a message -/

/-- R109 to R113 with R102's stream reading: a SINGLE packet of an unpacker completes and stores, for every sample of the
stream, its 16-bit value little-endian (R55), looked up for U11 and U12 (R104). The zeros that fill the last sample where
bits remain are those R107 and R111 state; U1 lets that sample be another value, and taking the stated one is log entry
A14's choice. -/
def Obligations.UnpackersStoreTheStream : Prop :=
  ∀ (k : ParseOp) (bpp : Nat) (len : Nat) (s : State), stateInv s →
    (k, bpp) ∈ [(ParseOp.u11, 11), (ParseOp.u12, 12), (ParseOp.u6, 6), (ParseOp.u10, 10)] →
    s.srcBase.toNat + len ≤ 2 ^ 32 → sourceAdmitted len s →
    s.wr.toNat + 2 * ((8 * len + bpp - 1) / bpp) ≤ s.boundCap.toNat →
    destinationAdmitted (2 * ((8 * len + bpp - 1) / bpp)) s →
    ∃ t, exec (k.instr .single false len) s = .next t ∧
      t.wr.toNat = s.wr.toNat + 2 * ((8 * len + bpp - 1) / bpp) ∧
      ∀ j, j < (8 * len + bpp - 1) / bpp →
        let v := storedSample k s (streamSample bpp (s.mem.readBytes s.srcBase.toNat len) j)
        t.mem.read (s.boundBase.toNat + s.wr.toNat + 2 * j) = v.extractLsb' 0 8 ∧
        t.mem.read (s.boundBase.toNat + s.wr.toNat + 2 * j + 1) = v.extractLsb' 8 8

/-- R130 to R133: a SINGLE packet of the converter completes, stores the six bytes of every whole macropixel in order, and
drops the bytes left over. The colour values are those of the floor form (log entry A15). -/
def Obligations.ConverterStoresMacropixels : Prop :=
  ∀ (len : Nat) (s : State), stateInv s →
    s.srcBase.toNat + len ≤ 2 ^ 32 → sourceAdmitted len s →
    s.wr.toNat + 6 * (len / 4) ≤ s.boundCap.toNat → destinationAdmitted (6 * (len / 4)) s →
    ∃ t, exec (.yuv2rgb .single false len) s = .next t ∧
      t.wr.toNat = s.wr.toNat + 6 * (len / 4) ∧ t.codec.cy = [] ∧
      ∀ j i, j < len / 4 → i < 6 →
        let p := fun n => s.mem.read (s.srcBase.toNat + 4 * j + n)
        t.mem.read (s.boundBase.toNat + s.wr.toNat + 6 * j + i) =
          (rgb (p 1) (p 0) (p 2) ++ rgb (p 3) (p 0) (p 2)).getD i 0#8

/-- R131: the conversion is the document's three equations over the rationals, with the chroma bytes less 128, floored
and clamped to a byte. -/
def Obligations.RgbFollowsEquations : Prop :=
  ∀ y u v : Byte,
    let Y : Rat := y.toNat
    let U : Rat := (u.toNat : Rat) - 128
    let V : Rat := (v.toNat : Rat) - 128
    rgb y u v =
      [ clampByte (Y + 113983 / 100000 * V),
        clampByte (Y - 39466 / 100000 * U - 58060 / 100000 * V),
        clampByte (Y + 203211 / 100000 * U) ]

/-- R115, R134: what an engine makes of a message, and the codec state after it, do not depend on how its bytes are
divided into packets. -/
def Obligations.SplitInvariance : Prop :=
  ∀ (k : ParseOp) (look : Nat → Half) (loss : Bool) (c : Codec) (ps : List (List Byte)), ps ≠ [] →
    runMessage k.engine look loss (k.engine.restart c) ps =
      k.engine.run look (k.engine.restart c) true loss ps.flatten

/-- R114, R134: the number of bytes a message of N payload bytes gives, whatever its division into packets, the table,
`LOSS` and the implementation: a stored sample's bytes (2, `OUT_W` being 16 bits; another `OUT_W` or `BIT_ORDER` is A13's) for each
of `ceil(8N / bpp)` samples when `TAIL_FLUSH`, of the whole samples or groups when not, and `6 * (N div 4)` of the converter. -/
def Obligations.MessageCount : Prop :=
  ∀ (cfg : Config) (look : Nat → Half) (loss : Bool) (c : Codec) (ps : List (List Byte)), ps ≠ [] →
    let n := ps.flatten.length
    let count (e : Engine) := (runMessage e look loss (e.restart c) ps).1.length
    (let size := cfg.outW / 8
     count (engine11 cfg) = size * (if cfg.tailFlush then (8 * n + 10) / 11 else 8 * n / 11) ∧
     count (engine6 cfg) = size * (if cfg.tailFlush then (8 * n + 5) / 6 else 8 * n / 6) ∧
     count (engine10 cfg) = size * (if cfg.tailFlush then (8 * n + 9) / 10 else 8 * n / 10) ∧
     count (engine12 cfg) = size * (if cfg.tailFlush then (8 * n + 11) / 12 else 16 * (n / 24))) ∧
    count engineYuv = 6 * (n / 4)

/-- R115 in memory: a message sent packet by packet, every command succeeding and no payload lying in the destination,
leaves `WR` advanced by, and memory holding exactly, what one command would emit for the payload bytes joined. -/
def Obligations.MessageLeavesItsOutput : Prop :=
  ∀ (k : ParseOp) (loss : Bool) (s t : State) (ps : List (Word × Nat)), stateInv s → ps ≠ [] →
    (∀ p ∈ ps, ∀ a, p.1.toNat ≤ a → a < p.1.toNat + p.2 →
      ¬ (s.boundBase.toNat + s.wr.toNat ≤ a ∧ a < s.boundBase.toNat + s.boundCap.toNat)) →
    sendMessage k loss true ps s = some t →
    let out := k.engine.run (lut s) (k.engine.restart s.codec) true loss (payloadOf s.mem ps)
    t.wr.toNat = s.wr.toNat + out.1.length ∧ t.codec = out.2 ∧ t.boundBase = s.boundBase ∧
    ∀ a, t.mem.read a =
      if s.boundBase.toNat + s.wr.toNat ≤ a ∧ a < s.boundBase.toNat + s.wr.toNat + out.1.length then
        out.1.getD (a - (s.boundBase.toNat + s.wr.toNat)) 0#8
      else s.mem.read a

/-! ### Tables -/

/-- R140: S2DBUILD, for every implementation and for LUB version 1, where AllocFailure cannot happen. -/
def Obligations.S2dbuildAllocatesAndFills : Prop :=
  (∀ (cfg : Config) (s : State),
    let ms := s.s2dConfig.maxShift.toNat
    let md := s.s2dConfig.maxDepth.toNat
    s2dbuild cfg s =
      if s.s2dConfig.psf = 0#16 then .next { s with status := { s.status with err := .invalidConfig } }
      else if ms + 1 > cfg.shiftRam ∨ md + 1 > cfg.depthRam then
        .next { s with status := { s.status with err := .allocFailure } }
      else
        .next { s with shiftAlloc := BitVec.ofNat 17 (ms + 1), depthAlloc := BitVec.ofNat 17 (md + 1),
                       shiftCount := BitVec.ofNat 17 (ms + 1), depthCount := BitVec.ofNat 17 (md + 1),
                       s2d := fillS2d cfg.depthFn s.s2dConfig (ms + 1) (md + 1),
                       d2s := fillD2s cfg.depthFn s.s2dConfig (ms + 1) (md + 1),
                       status := { s.status with tbl := true, err := .ok } }) ∧
  (∀ s : State,
    let ms := s.s2dConfig.maxShift.toNat
    let md := s.s2dConfig.maxDepth.toNat
    exec .s2dbuild s =
      if s.s2dConfig.psf = 0#16 then .next { s with status := { s.status with err := .invalidConfig } }
      else
        .next { s with shiftAlloc := BitVec.ofNat 17 (ms + 1), depthAlloc := BitVec.ofNat 17 (md + 1),
                       shiftCount := BitVec.ofNat 17 (ms + 1), depthCount := BitVec.ofNat 17 (md + 1),
                       s2d := fillS2d Config.openDepthFn s.s2dConfig (ms + 1) (md + 1),
                       d2s := fillD2s Config.openDepthFn s.s2dConfig (ms + 1) (md + 1),
                       status := { s.status with tbl := true, err := .ok } })

/-- R141: S2DUPDATE. -/
def Obligations.S2dupdateRefills : Prop :=
  ∀ s : State,
    let ms := s.s2dConfig.maxShift.toNat
    let md := s.s2dConfig.maxDepth.toNat
    exec .s2dupdate s =
      if s.status.tbl = false ∨ ms + 1 > s.shiftAlloc.toNat ∨ md + 1 > s.depthAlloc.toNat ∨ s.s2dConfig.psf = 0#16 then
        .next { s with status := { s.status with err := .invalidConfig } }
      else
        .next { s with shiftCount := BitVec.ofNat 17 (ms + 1), depthCount := BitVec.ofNat 17 (md + 1),
                       s2d := fillS2d Config.openDepthFn s.s2dConfig s.shiftAlloc.toNat s.depthAlloc.toNat,
                       d2s := fillD2s Config.openDepthFn s.s2dConfig s.shiftAlloc.toNat s.depthAlloc.toNat,
                       status := { s.status with err := .ok } }

/-- R146: S2DFREE; afterwards both windows read 0 and every looked-up sample is 0. R146 leaves the content of the table
memories unspecified: that the lists `s2d` and `d2s` keep theirs is log entry A7's choice. -/
def Obligations.S2dfreeTearsDown : Prop :=
  ∀ s : State, ∃ t, exec .s2dfree s = .next t ∧
    t = { s with shiftAlloc := 0#17, depthAlloc := 0#17, shiftCount := 0#17, depthCount := 0#17,
                 status := { s.status with tbl := false, err := .ok } } ∧
    (∀ off, 0x40000 ≤ off → regValue Config.lub t off = 0#32) ∧ (∀ v, lut t v = 0#16)

/-- R142, R144: a shift from 1 to `ms - 1` is valid exactly when its depth lies strictly within the cutoffs and its integer
part is at most the maximum depth; the forward table holds that integer part at every valid shift, and 0 at every other
entry, 0 and `ms` among them. -/
def Obligations.ForwardTableContents : Prop :=
  ∀ (f : S2dConfig → Nat → Option Rat) (r : S2dConfig) (shiftAlloc depthAlloc s : Nat),
    r.maxShift.toNat < shiftAlloc →
    (fillS2d f r shiftAlloc depthAlloc).length = shiftAlloc ∧
    (∀ d, validAt f r s d →
      ((fillS2d f r shiftAlloc depthAlloc).getD s 0#16).toNat = d ∧ d ≤ r.maxDepth.toNat ∧
      ∃ q, f r s = some q ∧ (r.minCutoff.toNat : Rat) < q ∧ q < r.maxCutoff.toNat ∧ (d : Int) = q.floor) ∧
    (∀ q, 1 ≤ s → s < r.maxShift.toNat → f r s = some q → (r.minCutoff.toNat : Rat) < q → q < r.maxCutoff.toNat →
      q.floor ≤ (r.maxDepth.toNat : Int) →
      validAt f r s q.floor.toNat ∧
      (((fillS2d f r shiftAlloc depthAlloc).getD s 0#16).toNat : Int) = q.floor) ∧
    ((¬ ∃ d, validAt f r s d) → (fillS2d f r shiftAlloc depthAlloc).getD s 0#16 = 0#16)

/-- R144: where the depth does not fall as the shift rises, the inverse table holds, from a valid depth up to the next
valid one, the shift of the former, and from the last valid depth up to `md`, the last valid shift; for any depth function, it
holds 0 below every valid depth (the reading A16 names). -/
def Obligations.InverseTableOfRisingDepth : Prop :=
  ∀ (f : S2dConfig → Nat → Option Rat) (r : S2dConfig) (shiftAlloc depthAlloc i : Nat),
    r.maxDepth.toNat < depthAlloc →
    (depthRises f r → ∀ s d, validAt f r s d → d ≤ i → i ≤ r.maxDepth.toNat →
      (∀ s' d', validAt f r s' d' → s < s' → i < d') →
      ((fillD2s f r shiftAlloc depthAlloc).getD i 0#16).toNat = s) ∧
    ((∀ s d, validAt f r s d → i < d) → (fillD2s f r shiftAlloc depthAlloc).getD i 0#16 = 0#16) ∧
    (r.maxDepth.toNat < i → (fillD2s f r shiftAlloc depthAlloc).getD i 0#16 = 0#16) ∧
    (fillD2s f r shiftAlloc depthAlloc).length = depthAlloc

/-- R144: where the depth does not rise as the shift rises, only step (e) leaves a mark: the last valid shift from the last
valid depth up to `md`, and 0 elsewhere. -/
def Obligations.InverseTableOfFallingDepth : Prop :=
  ∀ (f : S2dConfig → Nat → Option Rat) (r : S2dConfig) (shiftAlloc depthAlloc i s d : Nat),
    r.maxDepth.toNat < depthAlloc → depthFalls f r → validAt f r s d →
    (∀ s' d', validAt f r s' d' → s' ≤ s) →
    ((fillD2s f r shiftAlloc depthAlloc).getD i 0#16).toNat =
      if d ≤ i ∧ i ≤ r.maxDepth.toNat then s else 0

/-- R145: where the depth does not fall as the shift rises, going to depth and back from a valid shift gives the largest
valid shift of the same integer depth. -/
def Obligations.InverseOfForwardTable : Prop :=
  ∀ (f : S2dConfig → Nat → Option Rat) (r : S2dConfig) (shiftAlloc depthAlloc s d : Nat),
    r.maxShift.toNat < shiftAlloc → r.maxDepth.toNat < depthAlloc → depthRises f r → validAt f r s d →
    ∃ s', validAt f r s' d ∧ s ≤ s' ∧ (∀ s'', validAt f r s'' d → s'' ≤ s') ∧
      ((fillD2s f r shiftAlloc depthAlloc).getD ((fillS2d f r shiftAlloc depthAlloc).getD s 0#16).toNat 0#16).toNat = s'

/-- R33, R54, R147: no command but S2DBUILD and S2DUPDATE, and no host write to another register than `CMD`, changes a
table entry. For S2DFREE, after which R146 and U3 leave the content unspecified, keeping it is log entry A7's choice. -/
def Obligations.OnlyBuildAndUpdateWriteTables : Prop :=
  (∀ (i : Instr) (s t : State), i ≠ .s2dbuild → i ≠ .s2dupdate → exec i s = .next t → t.s2d = s.s2d ∧ t.d2s = s.d2s) ∧
  (∀ (s t : State) (off : Nat) (w : Word) (rest : List HostMove),
    s.host = .regWrite off 4 w :: rest → off ≠ 0 → step s = .next t →
    t.s2d = s.s2d ∧ t.d2s = s.d2s ∧ t.shiftCount = s.shiftCount ∧ t.depthCount = s.depthCount ∧
    t.shiftAlloc = s.shiftAlloc ∧ t.depthAlloc = s.depthAlloc)

/-- R33, R34, R146, U3: table entries at or above the allocations cannot be observed: two states that differ in nothing
else step alike, to states that again differ in nothing else. -/
def Obligations.SpareTableEntriesUnobservable : Prop :=
  ∀ s t : State, stateInv s → sameButSpareEntries s t →
    (∀ s', step s = .next s' → ∃ t', step t = .next t' ∧ sameButSpareEntries s' t') ∧
    (∀ f, step s = .fault f → step t = .fault f) ∧
    (∀ r, step s = .refused r → step t = .refused r)

/-! ### The whole machine -/

/-- R23, R24, R28: no command writes an operand register or a configuration register (nor the model's own fields). -/
def Obligations.CommandsNeverWriteOperands : Prop :=
  ∀ (i : Instr) (s t : State), exec i s = .next t →
    t = { t with srcBase := s.srcBase, dstBase := s.dstBase, dstCap := s.dstCap, s2dConfig := s.s2dConfig,
                 memAdmit := s.memAdmit, host := s.host, reads := s.reads }

/-- R117, R160: no command writes BadPacketFormat. -/
def Obligations.NeverBadPacketFormat : Prop :=
  ∀ (i : Instr) (s t : State), s.status.cerr ≠ .badPacketFormat → exec i s = .next t →
    t.status.err ≠ .badPacketFormat ∧ t.status.cerr ≠ .badPacketFormat

/-- R25, R26, R29, R35 to R39, R42: the invariant holds at reset, on every platform. -/
def Obligations.InvariantAtReset : Prop :=
  stateInv State.reset ∧ ∀ regions : List Region, stateInv (State.resetOn regions)

/-- R25, R26, R29, R35 to R39: every step keeps the invariant. -/
def Obligations.InvariantKeptByStep : Prop :=
  ∀ s t : State, stateInv s → step s = .next t → stateInv t

/-- R10, R50: after bytes are stored, the addresses they were stored at read them and every other address reads as
before. -/
def Obligations.MemoryReadAfterWrite : Prop :=
  ∀ (m : Memory) (a x : Nat) (bs : List Byte), m.wf →
    (m.writeBytes a bs).read x = if a ≤ x ∧ x < a + bs.length then bs.getD (x - a) 0#8 else m.read x
end

