-- ==== Sys2Proof/Laws/Encoding.lean ====
section
/-! SUPPORT. The fields of a command word (R70): each field of a composed word, a word from its fields, and the masks of
R73's table as conditions on fields. -/

namespace Sys2Proof

theorem Frag.ofBits_bits (f : Frag) : Frag.ofBits f.bits = f := by cases f <;> rfl

theorem Frag.bits_ofBits (b : BitVec 2) : (Frag.ofBits b).bits = b := by revert b; decide

/-! ### The fields of a composed word -/

theorem opField_wordOf (len : Nat) (loss : Bool) (frag : Frag) (op : BitVec 4) :
    opField (wordOf len loss frag op) = op := by
  apply BitVec.eq_of_getLsbD_eq
  intro i hi
  have : i < 4 ∧ i < 32 ∧ ¬ 4 ≤ i ∧ ¬ 6 ≤ i ∧ ¬ 16 ≤ i := by omega
  simp [opField, wordOf, this]

theorem fragField_wordOf (len : Nat) (loss : Bool) (frag : Frag) (op : BitVec 4) :
    fragField (wordOf len loss frag op) = frag.bits := by
  apply BitVec.eq_of_getLsbD_eq
  intro i hi
  rcases (by omega : i = 0 ∨ i = 1) with rfl | rfl <;> simp [fragField, wordOf]

theorem lossField_wordOf (len : Nat) (loss : Bool) (frag : Frag) (op : BitVec 4) :
    lossField (wordOf len loss frag op) = loss := by simp [lossField, wordOf]

theorem rsvField_wordOf (len : Nat) (loss : Bool) (frag : Frag) (op : BitVec 4) :
    rsvField (wordOf len loss frag op) = 0#9 := by
  apply BitVec.eq_of_getLsbD_eq
  intro i hi
  have h1 : 7 + i < 16 ∧ 7 + i < 32 ∧ ¬ 7 + i < 4 ∧ ¬ 7 + i < 6 := by omega
  have h2 : 2 ≤ 7 + i - 4 := by omega
  simp [rsvField, wordOf, h1, BitVec.getLsbD_of_ge _ _ h2, BitVec.getLsbD_of_ge op (7 + i) (by omega)]
  omega

theorem lenField_wordOf (len : Nat) (loss : Bool) (frag : Frag) (op : BitVec 4) :
    lenField (wordOf len loss frag op) = BitVec.ofNat 16 len := by
  apply BitVec.eq_of_getLsbD_eq
  intro i hi
  have h1 : 16 + i < 32 ∧ ¬ 16 + i < 4 ∧ ¬ 16 + i < 6 ∧ ¬ 16 + i < 16 := by omega
  have h2 : 2 ≤ 16 + i - 4 := by omega
  simp [lenField, wordOf, h1, BitVec.getLsbD_of_ge _ _ h2, BitVec.getLsbD_of_ge op (16 + i) (by omega),
    show 16 + i - 6 ≠ 0 by omega, hi, BitVec.getLsbD_ofNat, show i < 32 by omega, -BitVec.getLsbD_eq_getElem]

/-! ### A word is its fields -/

theorem word_ext {w v : Word} (hop : opField w = opField v) (hfrag : fragField w = fragField v)
    (hloss : lossField w = lossField v) (hrsv : rsvField w = rsvField v) (hlen : lenField w = lenField v) : w = v := by
  apply BitVec.eq_of_getLsbD_eq
  intro i hi
  by_cases c1 : i < 4
  · simpa [opField, c1] using congrArg (fun b => b.getLsbD i) hop
  by_cases c2 : i < 6
  · simpa [fragField, show i - 4 < 2 by omega, show 4 + (i - 4) = i by omega] using
      congrArg (fun b => b.getLsbD (i - 4)) hfrag
  by_cases c3 : i < 7
  · have : i = 6 := by omega
    subst this
    exact hloss
  by_cases c4 : i < 16
  · simpa [rsvField, show i - 7 < 9 by omega, show 7 + (i - 7) = i by omega] using
      congrArg (fun b => b.getLsbD (i - 7)) hrsv
  · simpa [lenField, show i - 16 < 16 by omega, show 16 + (i - 16) = i by omega] using
      congrArg (fun b => b.getLsbD (i - 16)) hlen

/-- The fields of a word that is an operation code alone. -/
theorem fields_op (op : BitVec 4) :
    opField (op.setWidth 32) = op ∧ fragField (op.setWidth 32) = 0#2 ∧ lossField (op.setWidth 32) = false ∧
    rsvField (op.setWidth 32) = 0#9 ∧ lenField (op.setWidth 32) = 0#16 := by
  revert op
  decide

/-- The mask 0x0000FF8F of R73 covers `OP` and `RSV`. -/
theorem mask_parse_iff (w : Word) (op : BitVec 4) :
    w &&& 0x0000FF8F#32 = op.setWidth 32 ↔ opField w = op ∧ rsvField w = 0#9 := by
  have e1 : opField (w &&& 0x0000FF8F#32) = opField w := by
    rw [opField, BitVec.extractLsb'_and]; exact BitVec.and_allOnes
  have e2 : fragField (w &&& 0x0000FF8F#32) = 0#2 := by
    rw [fragField, BitVec.extractLsb'_and]; exact BitVec.and_zero
  have e3 : lossField (w &&& 0x0000FF8F#32) = false := by simp [lossField]
  have e4 : rsvField (w &&& 0x0000FF8F#32) = rsvField w := by
    rw [rsvField, BitVec.extractLsb'_and]; exact BitVec.and_allOnes
  have e5 : lenField (w &&& 0x0000FF8F#32) = 0#16 := by
    rw [lenField, BitVec.extractLsb'_and]; exact BitVec.and_zero
  obtain ⟨f1, f2, f3, f4, f5⟩ := fields_op op
  constructor
  · intro h
    rw [h] at e1 e4
    exact ⟨e1.symm.trans f1, e4.symm.trans f4⟩
  · rintro ⟨h1, h2⟩
    exact word_ext (e1.trans (h1.trans f1.symm)) (e2.trans f2.symm) (e3.trans f3.symm)
      (e4.trans (h2.trans f4.symm)) (e5.trans f5.symm)

/-- The mask 0xFFFFFFFF of R73 covers every field. -/
theorem mask_plain_iff (w : Word) (op : BitVec 4) :
    w &&& 0xFFFFFFFF#32 = op.setWidth 32 ↔
      opField w = op ∧ rsvField w = 0#9 ∧ fragField w = 0#2 ∧ lossField w = false ∧ lenField w = 0#16 := by
  rw [show w &&& 0xFFFFFFFF#32 = w from BitVec.and_allOnes]
  obtain ⟨f1, f2, f3, f4, f5⟩ := fields_op op
  constructor
  · rintro rfl
    exact ⟨f1, f4, f2, f3, f5⟩
  · rintro ⟨h1, h2, h3, h4, h5⟩
    exact word_ext (h1.trans f1.symm) (h3.trans f2.symm) (h4.trans f3.symm) (h2.trans f4.symm) (h5.trans f5.symm)

/-! ### What the two row shapes answer -/

theorem decodeParse_ok {c : Frag → Bool → Nat → Instr} {w : Word} {i : Instr} (h : decodeParse c w = .ok i) :
    rsvField w = 0#9 ∧ i = c (.ofBits (fragField w)) (lossField w) (lenField w).toNat := by
  unfold decodeParse at h
  split at h
  · cases h; exact ⟨‹_›, rfl⟩
  · cases h

theorem decodePlain_ok {j : Instr} {w : Word} {i : Instr} (h : decodePlain j w = .ok i) :
    rsvField w = 0#9 ∧ i = j ∧ fragField w = 0#2 ∧ lossField w = false ∧ lenField w = 0#16 := by
  unfold decodePlain at h
  split at h
  · cases h
  · split at h
    · cases h; simp_all
    · cases h

end Sys2Proof
end

