-- ==== Sys2Proof/Laws/Memory.lean ====
section
/-! SUPPORT. System memory: what one write does, that every memory operation keeps the canonical form, and what the
block's admitted accesses answer. -/

namespace Sys2Proof.Machine

theorem Memory.wf_cons {c : Host.Cell} {m : Memory} :
    Memory.wf (c :: m) ↔ (∀ d ∈ m, c.1 < d.1) ∧ c.2 ≠ Memory.blank ∧ Memory.wf m := by
  simp only [Memory.wf, List.pairwise_cons, List.mem_cons, forall_eq_or_imp]
  tauto

/-- An address below every listed one is not listed. -/
theorem Memory.read_of_lt {m : Memory} {a : Nat} (h : ∀ c ∈ m, a < c.1) : m.read a = Memory.blank := by
  induction m with
  | nil => rfl
  | cons c m ih =>
    have hc := h c (by simp)
    rw [Memory.read, if_neg (by omega)]
    exact ih fun d hd => h d (by simp [hd])

/-- The entries of a memory after a write: those before, and possibly the new one. -/
theorem Memory.mem_write {m : Memory} {a : Nat} {v : Byte} {c : Host.Cell} (h : c ∈ m.write a v) :
    c ∈ m ∨ (c = (a, v) ∧ v ≠ Memory.blank) := by
  induction m with
  | nil =>
    unfold Memory.write at h
    split at h <;> simp_all
  | cons d m ih =>
    unfold Memory.write at h
    split at h
    · split at h <;> simp_all; tauto
    · split at h
      · split at h <;> simp_all; tauto
      · rcases List.mem_cons.1 h with rfl | h
        · simp
        · rcases ih h with h | h
          · simp [h]
          · exact .inr h

/-- A write keeps the canonical form. -/
theorem Memory.write_wf {m : Memory} (a : Nat) (v : Byte) (h : m.wf) : (m.write a v).wf := by
  induction m with
  | nil =>
    unfold Memory.write
    split <;> simp_all [Memory.wf]
  | cons c m ih =>
    obtain ⟨hlt, hv, hm⟩ := Memory.wf_cons.1 h
    unfold Memory.write
    split
    · split
      · exact h
      · refine Memory.wf_cons.2 ⟨?_, ‹_›, h⟩
        intro d hd
        rcases List.mem_cons.1 hd with rfl | hd
        · assumption
        · have := hlt d hd; simp only at *; omega
    · split
      · split
        · exact hm
        · refine Memory.wf_cons.2 ⟨?_, ‹_›, hm⟩
          intro d hd
          have := hlt d hd; simp only at *; omega
      · refine Memory.wf_cons.2 ⟨?_, hv, ih hm⟩
        intro d hd
        rcases Memory.mem_write hd with hd | ⟨rfl, -⟩
        · exact hlt d hd
        · simp only at *; omega

/-- A read after a write of one byte. -/
theorem Memory.read_write {m : Memory} (a x : Nat) (v : Byte) (h : m.wf) :
    (m.write a v).read x = if x = a then v else m.read x := by
  induction m with
  | nil =>
    unfold Memory.write
    split <;> simp_all [Memory.read, eq_comm]
  | cons c m ih =>
    obtain ⟨hlt, hv, hm⟩ := Memory.wf_cons.1 h
    unfold Memory.write
    split
    · split
      · split
        · subst_vars
          refine Memory.read_of_lt ?_
          intro d hd
          rcases List.mem_cons.1 hd with rfl | hd
          · assumption
          · have := hlt d hd; simp only at *; omega
        · rfl
      · simp only [Memory.read, eq_comm]
    · split
      · rename_i hac
        split
        · simp only [Memory.read]
          split
          · subst_vars
            exact Memory.read_of_lt fun d hd => hlt d hd
          · rw [if_neg (by omega)]
        · simp only [Memory.read]
          grind
      · simp only [Memory.read, ih hm]
        grind

/-- Storing bytes keeps the canonical form. -/
theorem Memory.writeBytes_wf {m : Memory} (a : Nat) (bs : List Byte) (h : m.wf) : (m.writeBytes a bs).wf := by
  induction bs generalizing m a with
  | nil => exact h
  | cons b bs ih => exact ih (a + 1) (Memory.write_wf a b h)

/-- Storing bytes below `n` lists no address at or above `n`. -/
theorem Memory.writeBytes_bound {m : Memory} {a n : Nat} {bs : List Byte} (h : ∀ c ∈ m, c.1 < n)
    (ha : a + bs.length ≤ n) : ∀ c ∈ m.writeBytes a bs, c.1 < n := by
  induction bs generalizing m a with
  | nil => exact h
  | cons b bs ih =>
    simp only [List.length_cons] at ha
    refine ih (m := m.write a b) (a := a + 1) ?_ (by omega)
    intro c hc
    rcases Memory.mem_write hc with hc | ⟨rfl, -⟩
    · exact h c hc
    · simp only; omega

@[simp] theorem Memory.readBytes_length (m : Memory) (a n : Nat) : (m.readBytes a n).length = n := by
  induction n generalizing a with
  | zero => rfl
  | succ n ih => simp [Memory.readBytes, ih]

/-- Byte `i` of a read is the byte at address `a + i`. -/
theorem Memory.readBytes_getD (m : Memory) (a n i : Nat) (h : i < n) :
    (m.readBytes a n).getD i 0#8 = m.read (a + i) := by
  induction n generalizing a i with
  | zero => omega
  | succ n ih =>
    cases i with
    | zero => simp [Memory.readBytes]
    | succ i =>
      simp only [Memory.readBytes, List.getD_cons_succ]
      rw [ih (a + 1) i (by omega)]
      congr 1
      omega

/-- Two memories that agree on a range give the same bytes there. -/
theorem Memory.readBytes_congr {m m' : Memory} {a n : Nat} (h : ∀ x, a ≤ x → x < a + n → m.read x = m'.read x) :
    m.readBytes a n = m'.readBytes a n := by
  induction n generalizing a with
  | zero => rfl
  | succ n ih =>
    simp only [Memory.readBytes]
    rw [h a (by omega) (by omega), ih fun x h1 h2 => h x (by omega) (by omega)]

theorem allFrom_iff (p : Nat → Bool) (a n : Nat) :
    allFrom p a n = true ↔ ∀ x, a ≤ x → x < a + n → p x = true := by
  induction n generalizing a with
  | zero => simp [allFrom]; intros; omega
  | succ n ih =>
    simp only [allFrom, Bool.and_eq_true, ih]
    constructor
    · rintro ⟨h0, h⟩ x h1 h2
      rcases Nat.eq_or_lt_of_le h1 with rfl | h1
      · exact h0
      · exact h x h1 (by omega)
    · intro h
      exact ⟨h a (Nat.le_refl a) (by omega), fun x h1 h2 => h x (by omega) (by omega)⟩

/-- Everything the block's read can answer. -/
theorem memRead_cases (cfg : Config) (s : State) (a n : Nat) :
    (2 ^ cfg.addrW < a + n ∧ memRead cfg s a n = .error .noSuchAddress) ∨
    (a + n ≤ 2 ^ cfg.addrW ∧ (∀ x, a ≤ x → x < a + n → mayRead cfg x = true) ∧
      memRead cfg s a n = .ok (s.mem.readBytes a n)) ∨
    (a + n ≤ 2 ^ cfg.addrW ∧ (¬ ∀ x, a ≤ x → x < a + n → mayRead cfg x = true) ∧
      memRead cfg s a n = .error .sourceNotAdmitted) := by
  unfold memRead
  by_cases h : 2 ^ cfg.addrW < a + n
  · exact .inl ⟨h, if_pos h⟩
  · rw [if_neg h]
    by_cases hp : allFrom (mayRead cfg) a n = true
    · exact .inr (.inl ⟨by omega, (allFrom_iff _ _ _).1 hp, if_pos hp⟩)
    · exact .inr (.inr ⟨by omega, fun hq => hp ((allFrom_iff _ _ _).2 hq), if_neg hp⟩)

/-- Everything the block's write can answer. -/
theorem memWrite_cases (cfg : Config) (s : State) (a : Nat) (bs : List Byte) :
    (2 ^ cfg.addrW < a + bs.length ∧ memWrite cfg s a bs = .error .noSuchAddress) ∨
    (a + bs.length ≤ 2 ^ cfg.addrW ∧ (∀ x, a ≤ x → x < a + bs.length → mayWrite cfg x = true) ∧
      memWrite cfg s a bs = .ok (s.mem.writeBytes a bs)) ∨
    (a + bs.length ≤ 2 ^ cfg.addrW ∧ (¬ ∀ x, a ≤ x → x < a + bs.length → mayWrite cfg x = true) ∧
      memWrite cfg s a bs = .error .destinationNotAdmitted) := by
  unfold memWrite
  by_cases h : 2 ^ cfg.addrW < a + bs.length
  · exact .inl ⟨h, if_pos h⟩
  · rw [if_neg h]
    by_cases hp : allFrom (mayWrite cfg) a bs.length = true
    · exact .inr (.inl ⟨by omega, (allFrom_iff _ _ _).1 hp, if_pos hp⟩)
    · exact .inr (.inr ⟨by omega, fun hq => hp ((allFrom_iff _ _ _).2 hq), if_neg hp⟩)

/-- Memory right after reset is in canonical form. -/
theorem State.reset_mem_wf : State.reset.mem.wf := by decide

end Sys2Proof.Machine
end

