-- ==== Sys2Proof/Laws/State.lean ====
section
/-! SUPPORT. One lemma per field per named update of the state, so that no later proof unfolds a record update. -/

namespace Sys2Proof.Machine

/-! ### `setErr` -/

@[simp] theorem setErr_srcBase (e : ResultCode) (s : State) : (setErr e s).srcBase = s.srcBase := rfl
@[simp] theorem setErr_dstBase (e : ResultCode) (s : State) : (setErr e s).dstBase = s.dstBase := rfl
@[simp] theorem setErr_dstCap (e : ResultCode) (s : State) : (setErr e s).dstCap = s.dstCap := rfl
@[simp] theorem setErr_wr (e : ResultCode) (s : State) : (setErr e s).wr = s.wr := rfl
@[simp] theorem setErr_boundBase (e : ResultCode) (s : State) : (setErr e s).boundBase = s.boundBase := rfl
@[simp] theorem setErr_boundCap (e : ResultCode) (s : State) : (setErr e s).boundCap = s.boundCap := rfl
@[simp] theorem setErr_status (e : ResultCode) (s : State) : (setErr e s).status = { s.status with err := e } := rfl
@[simp] theorem setErr_s2dConfig (e : ResultCode) (s : State) : (setErr e s).s2dConfig = s.s2dConfig := rfl
@[simp] theorem setErr_shiftCount (e : ResultCode) (s : State) : (setErr e s).shiftCount = s.shiftCount := rfl
@[simp] theorem setErr_depthCount (e : ResultCode) (s : State) : (setErr e s).depthCount = s.depthCount := rfl
@[simp] theorem setErr_shiftAlloc (e : ResultCode) (s : State) : (setErr e s).shiftAlloc = s.shiftAlloc := rfl
@[simp] theorem setErr_depthAlloc (e : ResultCode) (s : State) : (setErr e s).depthAlloc = s.depthAlloc := rfl
@[simp] theorem setErr_s2d (e : ResultCode) (s : State) : (setErr e s).s2d = s.s2d := rfl
@[simp] theorem setErr_d2s (e : ResultCode) (s : State) : (setErr e s).d2s = s.d2s := rfl
@[simp] theorem setErr_codec (e : ResultCode) (s : State) : (setErr e s).codec = s.codec := rfl
@[simp] theorem setErr_mem (e : ResultCode) (s : State) : (setErr e s).mem = s.mem := rfl
@[simp] theorem setErr_memAdmit (e : ResultCode) (s : State) : (setErr e s).memAdmit = s.memAdmit := rfl
@[simp] theorem setErr_host (e : ResultCode) (s : State) : (setErr e s).host = s.host := rfl
@[simp] theorem setErr_reads (e : ResultCode) (s : State) : (setErr e s).reads = s.reads := rfl

/-! ### `clearCorrupt` -/

@[simp] theorem clearCorrupt_srcBase (s : State) : (clearCorrupt s).srcBase = s.srcBase := rfl
@[simp] theorem clearCorrupt_dstBase (s : State) : (clearCorrupt s).dstBase = s.dstBase := rfl
@[simp] theorem clearCorrupt_dstCap (s : State) : (clearCorrupt s).dstCap = s.dstCap := rfl
@[simp] theorem clearCorrupt_wr (s : State) : (clearCorrupt s).wr = s.wr := rfl
@[simp] theorem clearCorrupt_boundBase (s : State) : (clearCorrupt s).boundBase = s.boundBase := rfl
@[simp] theorem clearCorrupt_boundCap (s : State) : (clearCorrupt s).boundCap = s.boundCap := rfl
@[simp] theorem clearCorrupt_status (s : State) : (clearCorrupt s).status = { s.status with corrupt := false, cerr := .ok } := rfl
@[simp] theorem clearCorrupt_s2dConfig (s : State) : (clearCorrupt s).s2dConfig = s.s2dConfig := rfl
@[simp] theorem clearCorrupt_shiftCount (s : State) : (clearCorrupt s).shiftCount = s.shiftCount := rfl
@[simp] theorem clearCorrupt_depthCount (s : State) : (clearCorrupt s).depthCount = s.depthCount := rfl
@[simp] theorem clearCorrupt_shiftAlloc (s : State) : (clearCorrupt s).shiftAlloc = s.shiftAlloc := rfl
@[simp] theorem clearCorrupt_depthAlloc (s : State) : (clearCorrupt s).depthAlloc = s.depthAlloc := rfl
@[simp] theorem clearCorrupt_s2d (s : State) : (clearCorrupt s).s2d = s.s2d := rfl
@[simp] theorem clearCorrupt_d2s (s : State) : (clearCorrupt s).d2s = s.d2s := rfl
@[simp] theorem clearCorrupt_codec (s : State) : (clearCorrupt s).codec = s.codec := rfl
@[simp] theorem clearCorrupt_mem (s : State) : (clearCorrupt s).mem = s.mem := rfl
@[simp] theorem clearCorrupt_memAdmit (s : State) : (clearCorrupt s).memAdmit = s.memAdmit := rfl
@[simp] theorem clearCorrupt_host (s : State) : (clearCorrupt s).host = s.host := rfl
@[simp] theorem clearCorrupt_reads (s : State) : (clearCorrupt s).reads = s.reads := rfl

/-! ### `markCorrupt` -/

@[simp] theorem markCorrupt_srcBase (e : ResultCode) (s : State) : (markCorrupt e s).srcBase = s.srcBase := rfl
@[simp] theorem markCorrupt_dstBase (e : ResultCode) (s : State) : (markCorrupt e s).dstBase = s.dstBase := rfl
@[simp] theorem markCorrupt_dstCap (e : ResultCode) (s : State) : (markCorrupt e s).dstCap = s.dstCap := rfl
@[simp] theorem markCorrupt_wr (e : ResultCode) (s : State) : (markCorrupt e s).wr = s.wr := rfl
@[simp] theorem markCorrupt_boundBase (e : ResultCode) (s : State) : (markCorrupt e s).boundBase = s.boundBase := rfl
@[simp] theorem markCorrupt_boundCap (e : ResultCode) (s : State) : (markCorrupt e s).boundCap = s.boundCap := rfl
@[simp] theorem markCorrupt_status (e : ResultCode) (s : State) : (markCorrupt e s).status = { s.status with corrupt := true, cerr := e } := rfl
@[simp] theorem markCorrupt_s2dConfig (e : ResultCode) (s : State) : (markCorrupt e s).s2dConfig = s.s2dConfig := rfl
@[simp] theorem markCorrupt_shiftCount (e : ResultCode) (s : State) : (markCorrupt e s).shiftCount = s.shiftCount := rfl
@[simp] theorem markCorrupt_depthCount (e : ResultCode) (s : State) : (markCorrupt e s).depthCount = s.depthCount := rfl
@[simp] theorem markCorrupt_shiftAlloc (e : ResultCode) (s : State) : (markCorrupt e s).shiftAlloc = s.shiftAlloc := rfl
@[simp] theorem markCorrupt_depthAlloc (e : ResultCode) (s : State) : (markCorrupt e s).depthAlloc = s.depthAlloc := rfl
@[simp] theorem markCorrupt_s2d (e : ResultCode) (s : State) : (markCorrupt e s).s2d = s.s2d := rfl
@[simp] theorem markCorrupt_d2s (e : ResultCode) (s : State) : (markCorrupt e s).d2s = s.d2s := rfl
@[simp] theorem markCorrupt_codec (e : ResultCode) (s : State) : (markCorrupt e s).codec = s.codec := rfl
@[simp] theorem markCorrupt_mem (e : ResultCode) (s : State) : (markCorrupt e s).mem = s.mem := rfl
@[simp] theorem markCorrupt_memAdmit (e : ResultCode) (s : State) : (markCorrupt e s).memAdmit = s.memAdmit := rfl
@[simp] theorem markCorrupt_host (e : ResultCode) (s : State) : (markCorrupt e s).host = s.host := rfl
@[simp] theorem markCorrupt_reads (e : ResultCode) (s : State) : (markCorrupt e s).reads = s.reads := rfl

/-! ### `resetBlock` -/

@[simp] theorem resetBlock_srcBase (s : State) : (resetBlock s).srcBase = State.reset.srcBase := rfl
@[simp] theorem resetBlock_dstBase (s : State) : (resetBlock s).dstBase = State.reset.dstBase := rfl
@[simp] theorem resetBlock_dstCap (s : State) : (resetBlock s).dstCap = State.reset.dstCap := rfl
@[simp] theorem resetBlock_wr (s : State) : (resetBlock s).wr = State.reset.wr := rfl
@[simp] theorem resetBlock_boundBase (s : State) : (resetBlock s).boundBase = State.reset.boundBase := rfl
@[simp] theorem resetBlock_boundCap (s : State) : (resetBlock s).boundCap = State.reset.boundCap := rfl
@[simp] theorem resetBlock_status (s : State) : (resetBlock s).status = State.reset.status := rfl
@[simp] theorem resetBlock_s2dConfig (s : State) : (resetBlock s).s2dConfig = State.reset.s2dConfig := rfl
@[simp] theorem resetBlock_shiftCount (s : State) : (resetBlock s).shiftCount = State.reset.shiftCount := rfl
@[simp] theorem resetBlock_depthCount (s : State) : (resetBlock s).depthCount = State.reset.depthCount := rfl
@[simp] theorem resetBlock_shiftAlloc (s : State) : (resetBlock s).shiftAlloc = State.reset.shiftAlloc := rfl
@[simp] theorem resetBlock_depthAlloc (s : State) : (resetBlock s).depthAlloc = State.reset.depthAlloc := rfl
@[simp] theorem resetBlock_s2d (s : State) : (resetBlock s).s2d = State.reset.s2d := rfl
@[simp] theorem resetBlock_d2s (s : State) : (resetBlock s).d2s = State.reset.d2s := rfl
@[simp] theorem resetBlock_codec (s : State) : (resetBlock s).codec = State.reset.codec := rfl
@[simp] theorem resetBlock_mem (s : State) : (resetBlock s).mem = s.mem := rfl
@[simp] theorem resetBlock_memAdmit (s : State) : (resetBlock s).memAdmit = s.memAdmit := rfl
@[simp] theorem resetBlock_host (s : State) : (resetBlock s).host = s.host := rfl
@[simp] theorem resetBlock_reads (s : State) : (resetBlock s).reads = s.reads := rfl

/-! ### `allocate` -/

@[simp] theorem allocate_srcBase (s : State) : (allocate s).srcBase = s.srcBase := rfl
@[simp] theorem allocate_dstBase (s : State) : (allocate s).dstBase = s.dstBase := rfl
@[simp] theorem allocate_dstCap (s : State) : (allocate s).dstCap = s.dstCap := rfl
@[simp] theorem allocate_wr (s : State) : (allocate s).wr = s.wr := rfl
@[simp] theorem allocate_boundBase (s : State) : (allocate s).boundBase = s.boundBase := rfl
@[simp] theorem allocate_boundCap (s : State) : (allocate s).boundCap = s.boundCap := rfl
@[simp] theorem allocate_status (s : State) : (allocate s).status = { s.status with tbl := true } := rfl
@[simp] theorem allocate_s2dConfig (s : State) : (allocate s).s2dConfig = s.s2dConfig := rfl
@[simp] theorem allocate_shiftCount (s : State) : (allocate s).shiftCount = s.shiftCount := rfl
@[simp] theorem allocate_depthCount (s : State) : (allocate s).depthCount = s.depthCount := rfl
@[simp] theorem allocate_shiftAlloc (s : State) : (allocate s).shiftAlloc = BitVec.ofNat 17 (s.s2dConfig.maxShift.toNat + 1) := rfl
@[simp] theorem allocate_depthAlloc (s : State) : (allocate s).depthAlloc = BitVec.ofNat 17 (s.s2dConfig.maxDepth.toNat + 1) := rfl
@[simp] theorem allocate_s2d (s : State) : (allocate s).s2d = s.s2d := rfl
@[simp] theorem allocate_d2s (s : State) : (allocate s).d2s = s.d2s := rfl
@[simp] theorem allocate_codec (s : State) : (allocate s).codec = s.codec := rfl
@[simp] theorem allocate_mem (s : State) : (allocate s).mem = s.mem := rfl
@[simp] theorem allocate_memAdmit (s : State) : (allocate s).memAdmit = s.memAdmit := rfl
@[simp] theorem allocate_host (s : State) : (allocate s).host = s.host := rfl
@[simp] theorem allocate_reads (s : State) : (allocate s).reads = s.reads := rfl

/-! ### `fill` -/

@[simp] theorem fill_srcBase (cfg : Config) (s : State) : (fill cfg s).srcBase = s.srcBase := rfl
@[simp] theorem fill_dstBase (cfg : Config) (s : State) : (fill cfg s).dstBase = s.dstBase := rfl
@[simp] theorem fill_dstCap (cfg : Config) (s : State) : (fill cfg s).dstCap = s.dstCap := rfl
@[simp] theorem fill_wr (cfg : Config) (s : State) : (fill cfg s).wr = s.wr := rfl
@[simp] theorem fill_boundBase (cfg : Config) (s : State) : (fill cfg s).boundBase = s.boundBase := rfl
@[simp] theorem fill_boundCap (cfg : Config) (s : State) : (fill cfg s).boundCap = s.boundCap := rfl
@[simp] theorem fill_status (cfg : Config) (s : State) : (fill cfg s).status = s.status := rfl
@[simp] theorem fill_s2dConfig (cfg : Config) (s : State) : (fill cfg s).s2dConfig = s.s2dConfig := rfl
@[simp] theorem fill_shiftCount (cfg : Config) (s : State) : (fill cfg s).shiftCount = BitVec.ofNat 17 (s.s2dConfig.maxShift.toNat + 1) := rfl
@[simp] theorem fill_depthCount (cfg : Config) (s : State) : (fill cfg s).depthCount = BitVec.ofNat 17 (s.s2dConfig.maxDepth.toNat + 1) := rfl
@[simp] theorem fill_shiftAlloc (cfg : Config) (s : State) : (fill cfg s).shiftAlloc = s.shiftAlloc := rfl
@[simp] theorem fill_depthAlloc (cfg : Config) (s : State) : (fill cfg s).depthAlloc = s.depthAlloc := rfl
@[simp] theorem fill_s2d (cfg : Config) (s : State) : (fill cfg s).s2d = fillS2d cfg.depthFn s.s2dConfig s.shiftAlloc.toNat s.depthAlloc.toNat := rfl
@[simp] theorem fill_d2s (cfg : Config) (s : State) : (fill cfg s).d2s = fillD2s cfg.depthFn s.s2dConfig s.shiftAlloc.toNat s.depthAlloc.toNat := rfl
@[simp] theorem fill_codec (cfg : Config) (s : State) : (fill cfg s).codec = s.codec := rfl
@[simp] theorem fill_mem (cfg : Config) (s : State) : (fill cfg s).mem = s.mem := rfl
@[simp] theorem fill_memAdmit (cfg : Config) (s : State) : (fill cfg s).memAdmit = s.memAdmit := rfl
@[simp] theorem fill_host (cfg : Config) (s : State) : (fill cfg s).host = s.host := rfl
@[simp] theorem fill_reads (cfg : Config) (s : State) : (fill cfg s).reads = s.reads := rfl

/-! ### `writeReg`: a host write touches the operand and configuration registers only -/

@[simp] theorem writeReg_wr (s : State) (off : Nat) (w : Word) : (writeReg s off w).wr = s.wr := by
  unfold writeReg; split <;> rfl
@[simp] theorem writeReg_boundBase (s : State) (off : Nat) (w : Word) : (writeReg s off w).boundBase = s.boundBase := by
  unfold writeReg; split <;> rfl
@[simp] theorem writeReg_boundCap (s : State) (off : Nat) (w : Word) : (writeReg s off w).boundCap = s.boundCap := by
  unfold writeReg; split <;> rfl
@[simp] theorem writeReg_status (s : State) (off : Nat) (w : Word) : (writeReg s off w).status = s.status := by
  unfold writeReg; split <;> rfl
@[simp] theorem writeReg_shiftCount (s : State) (off : Nat) (w : Word) : (writeReg s off w).shiftCount = s.shiftCount := by
  unfold writeReg; split <;> rfl
@[simp] theorem writeReg_depthCount (s : State) (off : Nat) (w : Word) : (writeReg s off w).depthCount = s.depthCount := by
  unfold writeReg; split <;> rfl
@[simp] theorem writeReg_shiftAlloc (s : State) (off : Nat) (w : Word) : (writeReg s off w).shiftAlloc = s.shiftAlloc := by
  unfold writeReg; split <;> rfl
@[simp] theorem writeReg_depthAlloc (s : State) (off : Nat) (w : Word) : (writeReg s off w).depthAlloc = s.depthAlloc := by
  unfold writeReg; split <;> rfl
@[simp] theorem writeReg_s2d (s : State) (off : Nat) (w : Word) : (writeReg s off w).s2d = s.s2d := by
  unfold writeReg; split <;> rfl
@[simp] theorem writeReg_d2s (s : State) (off : Nat) (w : Word) : (writeReg s off w).d2s = s.d2s := by
  unfold writeReg; split <;> rfl
@[simp] theorem writeReg_codec (s : State) (off : Nat) (w : Word) : (writeReg s off w).codec = s.codec := by
  unfold writeReg; split <;> rfl
@[simp] theorem writeReg_mem (s : State) (off : Nat) (w : Word) : (writeReg s off w).mem = s.mem := by
  unfold writeReg; split <;> rfl
@[simp] theorem writeReg_memAdmit (s : State) (off : Nat) (w : Word) : (writeReg s off w).memAdmit = s.memAdmit := by
  unfold writeReg; split <;> rfl
@[simp] theorem writeReg_host (s : State) (off : Nat) (w : Word) : (writeReg s off w).host = s.host := by
  unfold writeReg; split <;> rfl
@[simp] theorem writeReg_reads (s : State) (off : Nat) (w : Word) : (writeReg s off w).reads = s.reads := by
  unfold writeReg; split <;> rfl

/-! ### The implementation parameters of LUB version 1 -/

@[simp] theorem lub_addrW : Config.lub.addrW = 32 := rfl
@[simp] theorem lub_bigEndian : Config.lub.bigEndian = false := rfl
@[simp] theorem lub_bitOrder : Config.lub.bitOrder = .msbFirst := rfl
@[simp] theorem lub_outW : Config.lub.outW = 16 := rfl
@[simp] theorem lub_lookup12 : Config.lub.lookup12 = true := rfl
@[simp] theorem lub_tailFlush : Config.lub.tailFlush = true := rfl
@[simp] theorem lub_shiftRam : Config.lub.shiftRam = 65536 := rfl
@[simp] theorem lub_depthRam : Config.lub.depthRam = 65536 := rfl
@[simp] theorem lub_depthFn : Config.lub.depthFn = Config.openDepthFn := rfl
@[simp] theorem lub_memAdmit : Config.lub.memAdmit = Config.admitAll := rfl
@[simp] theorem lub_idValue : Config.lub.idValue = 0x4C554201#32 := rfl

/-! ### The implementation a machine is: LUB version 1 on the platform its state names -/

@[simp] theorem config_addrW (s : State) : s.config.addrW = 32 := rfl
@[simp] theorem config_bigEndian (s : State) : s.config.bigEndian = false := rfl
@[simp] theorem config_bitOrder (s : State) : s.config.bitOrder = .msbFirst := rfl
@[simp] theorem config_outW (s : State) : s.config.outW = 16 := rfl
@[simp] theorem config_lookup12 (s : State) : s.config.lookup12 = true := rfl
@[simp] theorem config_tailFlush (s : State) : s.config.tailFlush = true := rfl
@[simp] theorem config_shiftRam (s : State) : s.config.shiftRam = 65536 := rfl
@[simp] theorem config_depthRam (s : State) : s.config.depthRam = 65536 := rfl
@[simp] theorem config_depthFn (s : State) : s.config.depthFn = Config.openDepthFn := rfl
@[simp] theorem config_memAdmit (s : State) : s.config.memAdmit = s.memAdmit := rfl
@[simp] theorem config_idValue (s : State) : s.config.idValue = 0x4C554201#32 := rfl

/-- Two states on one platform are one implementation. -/
theorem config_congr {s t : State} (h : t.memAdmit = s.memAdmit) : t.config = s.config := by simp [State.config, h]

/-- The registers do not depend on the platform. -/
@[simp] theorem regValue_config (s t : State) (off : Nat) : regValue s.config t off = regValue Config.lub t off := rfl

end Sys2Proof.Machine
end

