-- ==== Sys2Proof/Laws/Parse.lean ====
section
/-! SUPPORT. What the common PARSE* sequence (R100) can answer, said once for every engine, and the state after its
step 3. -/

namespace Sys2Proof.Machine

/-! ### Step 3 -/

theorem beginReset_of_begin {e : Engine} {frag : Frag} {s : State} (h : hasBegin frag = true) :
    beginReset e frag s = clearCorrupt { s with codec := e.restart s.codec } := by simp [beginReset, h]

theorem beginReset_of_not {e : Engine} {frag : Frag} {s : State} (h : hasBegin frag = false) :
    beginReset e frag s = s := by simp [beginReset, h]

/-- Step 3 touches the codec state, `CORRUPT` and `CERR` only. -/
theorem beginReset_eq (e : Engine) (frag : Frag) (s : State) :
    beginReset e frag s =
      { s with codec := if hasBegin frag then e.restart s.codec else s.codec,
               status := if hasBegin frag then { s.status with corrupt := false, cerr := .ok } else s.status } := by
  cases h : hasBegin frag
  · simp [beginReset_of_not h]
  · simp [beginReset_of_begin h, clearCorrupt]

/-! ### Steps 5 to 9 -/

/-- Everything `parsePayload` can answer. -/
theorem parsePayload_cases (cfg : Config) (e : Engine) (last loss : Bool) (len : Nat) (s : State) :
    (∃ f, memRead cfg s s.srcBase.toNat len = .error f ∧ parsePayload cfg e last loss len s = .fault f) ∨
    (memRead cfg s s.srcBase.toNat len = .ok (s.mem.readBytes s.srcBase.toNat len) ∧
      s.boundCap.toNat < s.wr.toNat + e.need s.codec last len ∧
      parsePayload cfg e last loss len s = failCodec .outputBufferOverflow s) ∨
    (memRead cfg s s.srcBase.toNat len = .ok (s.mem.readBytes s.srcBase.toNat len) ∧
      s.wr.toNat + e.need s.codec last len ≤ s.boundCap.toNat ∧
      parsePayload cfg e last loss len s =
        store cfg (e.need s.codec last len)
          (e.run (lut s) s.codec last loss (s.mem.readBytes s.srcBase.toNat len)) s) := by
  unfold parsePayload
  rcases memRead_cases cfg s s.srcBase.toNat len with ⟨-, h⟩ | ⟨-, -, h⟩ | ⟨-, -, h⟩
  · exact .inl ⟨_, h, by rw [h]⟩
  · by_cases hc : s.boundCap.toNat < s.wr.toNat + e.need s.codec last len
    · exact .inr (.inl ⟨h, hc, by rw [h]; simp [hc]⟩)
    · exact .inr (.inr ⟨h, by omega, by rw [h]; simp [hc]⟩)
  · exact .inl ⟨_, h, by rw [h]⟩

/-- Everything `store` can answer: a fault of the write, or the bytes stored. -/
theorem store_cases (cfg : Config) (need : Nat) (r : List Byte × Codec) (s : State) :
    (∃ f, memWrite cfg s (s.boundBase.toNat + s.wr.toNat) r.1 = .error f ∧ store cfg need r s = .fault f) ∨
    (memWrite cfg s (s.boundBase.toNat + s.wr.toNat) r.1 =
        .ok (s.mem.writeBytes (s.boundBase.toNat + s.wr.toNat) r.1) ∧
      store cfg need r s = succeed { s with mem := s.mem.writeBytes (s.boundBase.toNat + s.wr.toNat) r.1,
                                            codec := r.2, wr := BitVec.ofNat 32 (s.wr.toNat + need) }) := by
  unfold store
  rcases memWrite_cases cfg s (s.boundBase.toNat + s.wr.toNat) r.1 with ⟨-, h⟩ | ⟨-, -, h⟩ | ⟨-, -, h⟩
  · exact .inl ⟨_, h, by rw [h]⟩
  · exact .inr ⟨h, by rw [h]⟩
  · exact .inl ⟨_, h, by rw [h]⟩

/-! ### The whole sequence -/

/-- Everything a PARSE* command that answers a next state can have done (R100): failed on a wrapping source range, failed
with the latched code, failed on capacity, or stored what its engine emits. -/
theorem parse_next {cfg : Config} {e : Engine} {frag : Frag} {loss : Bool} {len : Nat} {s t : State}
    (h : parse cfg e frag loss len s = .next t) :
    (2 ^ cfg.addrW < s.srcBase.toNat + len ∧ t = setErr .badCommand s) ∨
    (s.srcBase.toNat + len ≤ 2 ^ cfg.addrW ∧ hasBegin frag = false ∧ s.status.corrupt = true ∧
      t = setErr s.status.cerr s) ∨
    (s.srcBase.toNat + len ≤ 2 ^ cfg.addrW ∧ (beginReset e frag s).status.corrupt = false ∧
      s.boundCap.toNat < s.wr.toNat + e.need (beginReset e frag s).codec (hasEnd frag) len ∧
      t = setErr .outputBufferOverflow (markCorrupt .outputBufferOverflow (beginReset e frag s))) ∨
    (s.srcBase.toNat + len ≤ 2 ^ cfg.addrW ∧ (beginReset e frag s).status.corrupt = false ∧
      s.wr.toNat + e.need (beginReset e frag s).codec (hasEnd frag) len ≤ s.boundCap.toNat ∧
      ∃ r, r = e.run (lut s) (beginReset e frag s).codec (hasEnd frag) loss (s.mem.readBytes s.srcBase.toNat len) ∧
        memWrite cfg s (s.boundBase.toNat + s.wr.toNat) r.1 =
          .ok (s.mem.writeBytes (s.boundBase.toNat + s.wr.toNat) r.1) ∧
        t = setErr .ok { beginReset e frag s with
              mem := s.mem.writeBytes (s.boundBase.toNat + s.wr.toNat) r.1, codec := r.2,
              wr := BitVec.ofNat 32 (s.wr.toNat + e.need (beginReset e frag s).codec (hasEnd frag) len) }) := by
  have hb := beginReset_eq e frag s
  unfold parse at h
  split at h
  · cases h; exact .inl ⟨‹_›, rfl⟩
  rename_i hw
  split at h
  · rename_i hc
    cases hf : hasBegin frag
    · rw [beginReset_of_not hf] at hc h
      cases h
      exact .inr (.inl ⟨by omega, rfl, hc, rfl⟩)
    · simp [beginReset_of_begin hf] at hc
  rename_i hc
  simp only [Bool.not_eq_true] at hc
  have hlut : lut (beginReset e frag s) = lut s := by
    rw [hb]
    rfl
  have hmw : ∀ a bs, memWrite cfg (beginReset e frag s) a bs = memWrite cfg s a bs := by
    rw [hb]
    intros
    rfl
  rcases parsePayload_cases cfg e (hasEnd frag) loss len (beginReset e frag s) with
    ⟨f, -, h1⟩ | ⟨-, h2, h1⟩ | ⟨-, h2, h1⟩
  · rw [h1] at h
    cases h
  · rw [h1] at h
    cases h
    refine .inr (.inr (.inl ⟨by omega, hc, ?_, rfl⟩))
    simpa [beginReset_eq e frag s] using h2
  · rw [h1] at h
    rcases store_cases cfg (e.need (beginReset e frag s).codec (hasEnd frag) len)
      (e.run (lut (beginReset e frag s)) (beginReset e frag s).codec (hasEnd frag) loss
        ((beginReset e frag s).mem.readBytes (beginReset e frag s).srcBase.toNat len)) (beginReset e frag s) with
      ⟨f, -, h3⟩ | ⟨h3, h4⟩
    · rw [h3] at h
      cases h
    · rw [h4] at h
      cases h
      refine .inr (.inr (.inr ⟨by omega, hc, ?_, _, rfl, ?_, ?_⟩))
      · simpa [beginReset_eq e frag s] using h2
      · rw [hmw, hlut] at h3
        simpa [beginReset_eq e frag s] using h3
      · rw [hlut]
        simp [beginReset_eq e frag s]

/-- A PARSE* command that passes its checks completes (R100 steps 5 to 9). -/
theorem parse_completes {cfg : Config} {e : Engine} {frag : Frag} {loss : Bool} {len : Nat} {s : State}
    {r : List Byte × Codec} (hw : s.srcBase.toNat + len ≤ 2 ^ cfg.addrW)
    (hc : (beginReset e frag s).status.corrupt = false)
    (hr : ∀ x, s.srcBase.toNat ≤ x → x < s.srcBase.toNat + len → mayRead cfg x = true)
    (hn : s.wr.toNat + e.need (beginReset e frag s).codec (hasEnd frag) len ≤ s.boundCap.toNat)
    (he : r = e.run (lut s) (beginReset e frag s).codec (hasEnd frag) loss (s.mem.readBytes s.srcBase.toNat len))
    (hb : s.boundBase.toNat + s.wr.toNat + r.1.length ≤ 2 ^ cfg.addrW)
    (hd : ∀ x, s.boundBase.toNat + s.wr.toNat ≤ x → x < s.boundBase.toNat + s.wr.toNat + r.1.length →
      mayWrite cfg x = true) :
    parse cfg e frag loss len s =
      .next (setErr .ok { beginReset e frag s with
        mem := s.mem.writeBytes (s.boundBase.toNat + s.wr.toNat) r.1, codec := r.2,
        wr := BitVec.ofNat 32 (s.wr.toNat + e.need (beginReset e frag s).codec (hasEnd frag) len) }) := by
  have hs := beginReset_eq e frag s
  have hrd : memRead cfg (beginReset e frag s) s.srcBase.toNat len = .ok (s.mem.readBytes s.srcBase.toNat len) := by
    have h1 : memRead cfg (beginReset e frag s) s.srcBase.toNat len = memRead cfg s s.srcBase.toNat len := by
      rw [hs]
      rfl
    rw [h1]
    rcases memRead_cases cfg s s.srcBase.toNat len with ⟨h, -⟩ | ⟨-, -, h⟩ | ⟨-, h, -⟩
    · omega
    · exact h
    · exact absurd hr h
  have hwr : memWrite cfg (beginReset e frag s) (s.boundBase.toNat + s.wr.toNat) r.1 =
      .ok (s.mem.writeBytes (s.boundBase.toNat + s.wr.toNat) r.1) := by
    have h1 : ∀ a bs, memWrite cfg (beginReset e frag s) a bs = memWrite cfg s a bs := by
      rw [hs]
      intros
      rfl
    rw [h1]
    rcases memWrite_cases cfg s (s.boundBase.toNat + s.wr.toNat) r.1 with ⟨h, -⟩ | ⟨-, -, h⟩ | ⟨-, h, -⟩
    · omega
    · exact h
    · exact absurd hd h
  have hlut : lut (beginReset e frag s) = lut s := by
    rw [hs]
    rfl
  have e1 : (beginReset e frag s).srcBase = s.srcBase := by rw [hs]
  have e2 : (beginReset e frag s).boundCap = s.boundCap := by rw [hs]
  have e3 : (beginReset e frag s).wr = s.wr := by rw [hs]
  have e4 : (beginReset e frag s).boundBase = s.boundBase := by rw [hs]
  unfold parse parsePayload
  rw [if_neg (by omega), if_neg (by simp [hc]), e1, hrd]
  simp only [e2, e3]
  rw [if_neg (by omega)]
  unfold store
  rw [e4, e3, hlut, ← he, hwr]
  simp only [succeed, e2]

end Sys2Proof.Machine
end

