-- ==== Sys2Proof/Laws/PerInstr.lean ====
section
/-! SUPPORT. Statements made per command: the family `OpcodeField`. -/

/-- R70, R73: the word of a command carries its own operation code in bits 3:0 and zeros in `RSV`. -/
def Sys2Proof.Laws.OpcodeField.Statement (i : Sys2Proof.Instr) : Prop :=
  Sys2Proof.opField (Sys2Proof.encode i) = i.op ∧ Sys2Proof.rsvField (Sys2Proof.encode i) = 0#9

namespace Sys2Proof.Laws.OpcodeField

theorem of_wordOf {i : Sys2Proof.Instr} {len : Nat} {loss : Bool} {frag : Sys2Proof.Frag}
    (h : Sys2Proof.encode i = Sys2Proof.wordOf len loss frag i.op) : Statement i := by
  unfold Statement
  rw [h]
  exact ⟨Sys2Proof.opField_wordOf _ _ _ _, Sys2Proof.rsvField_wordOf _ _ _ _⟩

theorem beginp : Statement .beginp := of_wordOf rfl
theorem parse11 (frag : Sys2Proof.Frag) (loss : Bool) (len : Nat) : Statement (.parse11 frag loss len) := of_wordOf rfl
theorem parse12 (frag : Sys2Proof.Frag) (loss : Bool) (len : Nat) : Statement (.parse12 frag loss len) := of_wordOf rfl
theorem parse6 (frag : Sys2Proof.Frag) (loss : Bool) (len : Nat) : Statement (.parse6 frag loss len) := of_wordOf rfl
theorem parse10 (frag : Sys2Proof.Frag) (loss : Bool) (len : Nat) : Statement (.parse10 frag loss len) := of_wordOf rfl
theorem yuv2rgb (frag : Sys2Proof.Frag) (loss : Bool) (len : Nat) : Statement (.yuv2rgb frag loss len) := of_wordOf rfl
theorem s2dbuild : Statement .s2dbuild := of_wordOf rfl
theorem s2dupdate : Statement .s2dupdate := of_wordOf rfl
theorem s2dfree : Statement .s2dfree := of_wordOf rfl
theorem shutdown : Statement .shutdown := of_wordOf rfl

end Sys2Proof.Laws.OpcodeField
end

