-- ==== Sys2Proof/Laws/Step.lean ====
section
/-! SUPPORT. What a step is for each of the host's moves (R192), and how commands split into the PARSE* family and the
rest. -/

namespace Sys2Proof.Machine

/-! ### Steps -/

theorem step_of_none {s : State} (h : s.host = []) : step s = .next s := by simp [step, nextMove, h]

theorem step_of_move {s : State} {m : HostMove} {rest : List HostMove} (h : s.host = m :: rest) :
    step s = hostMove m { s with host := rest } := by simp [step, nextMove, h]

/-- A step that writes `CMD` runs the word. -/
theorem step_of_command {s : State} {w : Word} {rest : List HostMove} (h : s.host = .regWrite 0 4 w :: rest) :
    step s = runCommand w { s with host := rest } := by
  rw [step_of_move h]
  rfl

/-- A step that writes another register. -/
theorem step_of_regWrite {s : State} {off : Nat} {w : Word} {rest : List HostMove}
    (h : s.host = .regWrite off 4 w :: rest) (h4 : off % 4 = 0) (hlt : off < 0xC0000) (h0 : off ≠ 0) :
    step s = .next (writeReg { s with host := rest } off w) := by
  rw [step_of_move h]
  simp [hostMove, hostRegWrite, legalAccess, h4, hlt, h0]

/-- A step that reads a register. -/
theorem step_of_regRead {s : State} {off : Nat} {rest : List HostMove}
    (h : s.host = .regRead off 4 :: rest) (h4 : off % 4 = 0) (hlt : off < 0xC0000) :
    step s = .next { s with host := rest, reads := s.reads ++ [regValue Config.lub s off] } := by
  rw [step_of_move h]
  simp only [hostMove, hostRegRead, legalAccess, h4, hlt, regValue_config]
  rfl

/-! ### Commands -/

/-- The five PARSE* commands are the common sequence, each with its engine. -/
theorem exec_instr (k : ParseOp) (frag : Frag) (loss : Bool) (len : Nat) (s : State) :
    exec (k.instr frag loss len) s = parse s.config k.engine frag loss len s := by cases k <;> rfl

/-- A command is a PARSE* command or one of the other five. -/
theorem instr_cases (i : Instr) :
    (∃ (k : ParseOp) (frag : Frag) (loss : Bool) (len : Nat), i = k.instr frag loss len) ∨
    i = .beginp ∨ i = .s2dbuild ∨ i = .s2dupdate ∨ i = .s2dfree ∨ i = .shutdown := by
  cases i
  case parse11 f l n => exact .inl ⟨.u11, f, l, n, rfl⟩
  case parse12 f l n => exact .inl ⟨.u12, f, l, n, rfl⟩
  case parse6 f l n => exact .inl ⟨.u6, f, l, n, rfl⟩
  case parse10 f l n => exact .inl ⟨.u10, f, l, n, rfl⟩
  case yuv2rgb f l n => exact .inl ⟨.yuv, f, l, n, rfl⟩
  all_goals tauto

end Sys2Proof.Machine
end

