-- ==== Sys2Proof/Laws/Stream.lean ====
section
/-! SUPPORT. The stream reading of R102: what a value of the stream is when bytes are added at its end, the loop of R102
on it, what the packet functions are MSB-first, and the shape of what the emission primitives give (R108). -/

namespace Sys2Proof.Machine

/-! ### Values of the stream -/

theorem streamBit_lt (bs : List Byte) (j : Nat) : streamBit bs j < 2 := by unfold streamBit; split <;> omega

theorem streamValue_lt (bs : List Byte) (j n : Nat) : streamValue bs j n < 2 ^ n := by
  induction n with
  | zero => simp [streamValue]
  | succ n ih =>
    have := streamBit_lt bs (j + n)
    simp only [streamValue, Nat.pow_succ]
    omega

/-- A value of `m + n` bits is its first `m` bits, then its last `n`. -/
theorem streamValue_add (bs : List Byte) (j m n : Nat) :
    streamValue bs j (m + n) = streamValue bs j m * 2 ^ n + streamValue bs (j + m) n := by
  induction n with
  | zero => simp [streamValue]
  | succ n ih =>
    rw [← Nat.add_assoc]
    simp only [streamValue, ih, Nat.pow_succ, Nat.add_assoc]
    ring

theorem streamBit_append (P Q : List Byte) (j : Nat) (h : j < 8 * P.length) :
    streamBit (P ++ Q) j = streamBit P j := by
  unfold streamBit
  rw [List.getD_append _ _ _ _ (by omega)]

/-- A value that lies in the first bytes does not depend on the bytes after. -/
theorem streamValue_append (P Q : List Byte) (j n : Nat) (h : j + n ≤ 8 * P.length) :
    streamValue (P ++ Q) j n = streamValue P j n := by
  induction n with
  | zero => rfl
  | succ n ih =>
    simp only [streamValue]
    rw [ih (by omega), streamBit_append _ _ _ (by omega)]

/-- Past the last byte the stream reads 0. -/
theorem streamValue_past (bs : List Byte) (j n : Nat) (h : 8 * bs.length ≤ j) : streamValue bs j n = 0 := by
  induction n with
  | zero => rfl
  | succ n ih =>
    have hb : streamBit bs (j + n) = 0 := by
      unfold streamBit
      rw [List.getD_eq_getElem?_getD, List.getElem?_eq_none (by omega)]
      simp
    simp only [streamValue]
    rw [ih, hb]

/-- A byte is the value of its own eight bits. -/
theorem streamValue_byte (P Q : List Byte) (b : Byte) : streamValue (P ++ b :: Q) (8 * P.length) 8 = b.toNat := by
  have hb : ∀ i, i < 8 → streamBit (P ++ b :: Q) (8 * P.length + i) = if b.getLsbD (7 - i) then 1 else 0 := by
    intro i hi
    unfold streamBit
    rw [show (8 * P.length + i) / 8 = P.length by omega, show (8 * P.length + i) % 8 = i by omega]
    simp
  have h0 := hb 0 (by omega)
  rw [Nat.add_zero] at h0
  simp only [streamValue]
  rw [Nat.add_zero, h0, hb 1 (by omega), hb 2 (by omega), hb 3 (by omega), hb 4 (by omega), hb 5 (by omega),
    hb 6 (by omega), hb 7 (by omega)]
  clear h0 hb
  revert b
  decide +kernel

@[simp] theorem streamSamples_length (bpp n : Nat) (bs : List Byte) : (streamSamples bpp n bs).length = n := by
  simp [streamSamples]

/-! ### The accumulator's loop -/

/-- The loop of R102 on `nb` bits of the stream takes its whole samples and leaves the bits after them. -/
theorem drain_stream (bs : List Byte) (bpp : Nat) (hp : 0 < bpp) (k nb j : Nat) (hk : nb ≤ k) :
    drain bpp k nb (streamValue bs j nb) =
      ((List.range (nb / bpp)).map (fun i => streamValue bs (j + bpp * i) bpp), nb % bpp,
        streamValue bs (j + bpp * (nb / bpp)) (nb % bpp)) := by
  induction k generalizing nb j with
  | zero =>
    have : nb = 0 := by omega
    subst this
    simp [drain, streamValue]
  | succ k ih =>
    unfold drain
    by_cases h : bpp ≤ nb
    · rw [if_pos h]
      obtain ⟨n, rfl⟩ : ∃ n, nb = bpp + n := ⟨nb - bpp, by omega⟩
      have h1 := streamValue_add bs j bpp n
      have h2 := streamValue_lt bs (j + bpp) n
      have h3 := streamValue_lt bs j bpp
      have hd : streamValue bs j (bpp + n) / 2 ^ n = streamValue bs j bpp := by
        rw [h1, Nat.mul_comm, Nat.mul_add_div (Nat.two_pow_pos n), Nat.div_eq_of_lt h2]
        simp
      have hm : streamValue bs j (bpp + n) % 2 ^ n = streamValue bs (j + bpp) n := by
        rw [h1, Nat.mul_comm, Nat.mul_add_mod, Nat.mod_eq_of_lt h2]
      simp only [Nat.add_sub_cancel_left, hd, hm]
      rw [ih n (j + bpp) (by omega)]
      have hq : (bpp + n) / bpp = n / bpp + 1 := by rw [Nat.add_comm, Nat.add_div_right _ hp]
      rw [hq, Nat.add_mod_left, List.range_succ_eq_map, Nat.mod_eq_of_lt h3]
      simp only [List.map_cons, List.map_map, Nat.mul_zero, Nat.add_zero]
      refine Prod.ext ?_ (Prod.ext rfl ?_)
      · simp only [List.cons.injEq, true_and]
        apply List.map_congr_left
        intro i _
        simp only [Function.comp, Nat.mul_succ]
        congr 1
        omega
      · simp only [Nat.mul_succ]
        congr 1
        omega
    · rw [if_neg h, Nat.div_eq_of_lt (by omega), Nat.mod_eq_of_lt (by omega)]
      simp

theorem accBytes_append (bpp nb acc : Nat) (xs ys : List Byte) :
    accBytes bpp nb acc (xs ++ ys) =
      ((accBytes bpp nb acc xs).1 ++ (accBytes bpp (accBytes bpp nb acc xs).2.1 (accBytes bpp nb acc xs).2.2 ys).1,
       (accBytes bpp (accBytes bpp nb acc xs).2.1 (accBytes bpp nb acc xs).2.2 ys).2) := by
  induction xs generalizing nb acc with
  | nil => simp [accBytes]
  | cons x xs ih => simp [accBytes, ih]

/-! ### Bit order -/

@[simp] theorem map_streamByte_msbFirst (bs : List Byte) : bs.map (streamByte .msbFirst) = bs := List.map_id bs

@[simp] theorem map_sampleValue_msbFirst (bpp : Nat) (vs : List Nat) : vs.map (sampleValue .msbFirst bpp) = vs :=
  List.map_id vs

/-- MSB-first, a packet's samples are those of the byte loop (R102), then the tail's (R107). -/
theorem accPacket_msbFirst {cfg : Config} (h : cfg.bitOrder = .msbFirst) (bpp nb acc : Nat) (last : Bool)
    (payload : List Byte) :
    accPacket cfg bpp nb acc last payload =
      let r := accBytes bpp nb acc payload
      if last then (r.1 ++ accTail cfg bpp r.2.1 r.2.2, 0, 0) else r := by
  simp [accPacket, h]

/-- MSB-first, a packet's samples are those of the groups, then the tail's (R110, R111). -/
theorem packet12_msbFirst {cfg : Config} (h : cfg.bitOrder = .msbFirst) (bs : List Byte) (last : Bool) :
    packet12 cfg bs last =
      let g := bs.length / 24
      if last then (groupsSamples g bs ++ (if cfg.tailFlush then tailSamples (bs.drop (24 * g)) else []), [])
      else (groupsSamples g bs, bs.drop (24 * g)) := by
  simp [packet12, h]

/-! ### Emission -/

@[simp] theorem sampleSize_lub : sampleSize Config.lub = 2 := rfl

@[simp] theorem sampleBytes_lub (v : Half) : sampleBytes Config.lub v = [v.extractLsb' 0 8, v.extractLsb' 8 8] := rfl

theorem emitSamples_append (cfg : Config) (loss : Bool) (out : Nat → Half) (vs ws : List Nat) :
    emitSamples cfg loss out (vs ++ ws) = emitSamples cfg loss out vs ++ emitSamples cfg loss out ws := by
  simp [emitSamples]

/-- A stored sample has `sampleSize` bytes. -/
@[simp] theorem emit16_length (cfg : Config) (loss : Bool) (v : Half) : (emit16 cfg loss v).length = sampleSize cfg := by
  by_cases h : cfg.bigEndian = true <;> simp [emit16, sampleBytes, h]

/-- `sampleSize` bytes for each sample. -/
theorem emitSamples_length (cfg : Config) (loss : Bool) (out : Nat → Half) (vs : List Nat) :
    (emitSamples cfg loss out vs).length = sampleSize cfg * vs.length := by
  induction vs with
  | nil => rfl
  | cons v vs ih =>
    rw [show emitSamples cfg loss out (v :: vs) = emit16 cfg loss (out v) ++ emitSamples cfg loss out vs from rfl]
    simp only [List.length_append, List.length_cons, emit16_length, ih, Nat.mul_succ]
    omega

end Sys2Proof.Machine
end

