-- ==== Sys2Proof/Laws/Tables.lean ====
section
/-! SUPPORT. The table fill of R142: what setting a range does, the lengths of both tables, and what a valid shift is. -/

namespace Sys2Proof.Machine

@[simp] theorem setRange_length (v : Half) (lo hi : Nat) (l : List Half) : (setRange v lo hi l).length = l.length := by
  induction l generalizing lo hi with
  | nil => cases lo <;> cases hi <;> rfl
  | cons x xs ih => cases lo <;> cases hi <;> simp [setRange, ih]

/-- Setting a range sets the entries of the range, and no other. -/
theorem setRange_getD (v : Half) (lo hi : Nat) (l : List Half) (i : Nat) :
    (setRange v lo hi l).getD i 0#16 = if lo ≤ i ∧ i < hi ∧ i < l.length then v else l.getD i 0#16 := by
  induction l generalizing lo hi i with
  | nil => cases lo <;> cases hi <;> simp [setRange]
  | cons x xs ih =>
    cases lo with
    | zero =>
      cases hi with
      | zero => simp [setRange]
      | succ hi =>
        cases i with
        | zero => simp [setRange]
        | succ i => simp only [setRange, List.getD_cons_succ, ih, List.length_cons]; simp
    | succ lo =>
      cases i with
      | zero => simp [setRange]
      | succ i =>
        simp only [setRange, List.getD_cons_succ, ih, List.length_cons]
        congr 1
        apply propext
        omega

theorem foldl_fillShift_length (f : S2dConfig → Nat → Option Rat) (r : S2dConfig) (l : List Nat) (a : FillState) :
    (l.foldl (fillShift f r) a).s2d.length = a.s2d.length ∧ (l.foldl (fillShift f r) a).d2s.length = a.d2s.length := by
  induction l generalizing a with
  | nil => exact ⟨rfl, rfl⟩
  | cons x xs ih =>
    rw [List.foldl_cons, (ih _).1, (ih _).2]
    unfold fillShift
    split <;> simp

/-- The forward table has an entry for every entry of the allocation. -/
@[simp] theorem fillS2d_length (f : S2dConfig → Nat → Option Rat) (r : S2dConfig) (shiftAlloc depthAlloc : Nat) :
    (fillS2d f r shiftAlloc depthAlloc).length = shiftAlloc := by
  simp [fillS2d, fillLoop, foldl_fillShift_length]

/-- The inverse table has an entry for every entry of the allocation. -/
@[simp] theorem fillD2s_length (f : S2dConfig → Nat → Option Rat) (r : S2dConfig) (shiftAlloc depthAlloc : Nat) :
    (fillD2s f r shiftAlloc depthAlloc).length = depthAlloc := by
  simp [fillD2s, fillLoop, foldl_fillShift_length]

/-- What a valid shift's stored depth is (R142 (b), (c)). -/
theorem validDepth_some {f : S2dConfig → Nat → Option Rat} {r : S2dConfig} {s d : Nat}
    (h : validDepth f r s = some d) :
    d ≤ r.maxDepth.toNat ∧
      ∃ q, f r s = some q ∧ (r.minCutoff.toNat : Rat) < q ∧ q < r.maxCutoff.toNat ∧ (d : Int) = q.floor := by
  unfold validDepth at h
  split at h
  · cases h
  · rename_i q hq
    split at h
    · rename_i hc
      have hp : (0 : Rat) < q := lt_of_le_of_lt (by positivity) hc.1
      have h0 : (0 : Int) ≤ q.floor := Rat.le_floor_iff.2 (by exact_mod_cast hp.le)
      have hd : q.floor.toNat = d := by simpa using h
      exact ⟨by omega, q, hq, hc.1, hc.2.1, by omega⟩
    · cases h

/-- A shift whose depth passes the test of R142 (b), (c) is valid, with the integer part as its stored depth. -/
theorem validDepth_of {f : S2dConfig → Nat → Option Rat} {r : S2dConfig} {s : Nat} {q : Rat} (hq : f r s = some q)
    (hmin : (r.minCutoff.toNat : Rat) < q) (hmax : q < r.maxCutoff.toNat) (hd : q.floor ≤ (r.maxDepth.toNat : Int)) :
    validDepth f r s = some q.floor.toNat := by
  simp [validDepth, hq, hmin, hmax, hd]

/-- A count of at most 65536 entries fits the 17 bits of its register (R29). -/
theorem toNat_ofNat_count (x : Half) : (BitVec.ofNat 17 (x.toNat + 1)).toNat = x.toNat + 1 := by
  have := x.isLt
  simp
  omega

end Sys2Proof.Machine
end

