-- ==== Sys2Proof/Tests/Slice0.lean ====
section
/-! SUPPORT. Small tests, their expected results taken from spec/95_test_vectors.md and the examples of the rules, and a
witness for the hypotheses of every statement that has some. -/

-- One theorem at a time: each kernel evaluation waits for the one before it, and waiting ones hold a thread each.
set_option Elab.async false

namespace Sys2Proof.Tests

open Sys2Proof Sys2Proof.Machine

/-! ## Decoding: words written out from R70's layout (95_test_vectors.md section 7, R80) -/

/-- LEN 0000000000001011, RSV 000000000, LOSS 0, FRAG 11, OP 0010. -/
theorem test_decode_parse11 :
    decode 0b0000000000001011_000000000_0_11_0010#32 = .ok (.parse11 .single false 11) := by decide

/-- LEN 23, LOSS 1, FRAG 01, OP 0011. -/
theorem test_decode_parse12 :
    decode 0b0000000000010111_000000000_1_01_0011#32 = .ok (.parse12 .begins true 23) := by decide

/-- LEN 3, FRAG 11, OP 0100 (V6-1: 0x00030034). -/
theorem test_decode_parse6 :
    decode 0b0000000000000011_000000000_0_11_0100#32 = .ok (.parse6 .single false 3) := by decide

/-- LEN 7, FRAG 10, OP 0101. -/
theorem test_decode_parse10 :
    decode 0b0000000000000111_000000000_0_10_0101#32 = .ok (.parse10 .ends false 7) := by decide

/-- LEN 65535, LOSS 1, FRAG 00, OP 0110. -/
theorem test_decode_yuv2rgb :
    decode 0b1111111111111111_000000000_1_00_0110#32 = .ok (.yuv2rgb .middle true 65535) := by decide

theorem test_decode_beginp : decode 0b0000000000000000_000000000_0_00_0001#32 = .ok .beginp := by decide
theorem test_decode_s2dbuild : decode 0b0000000000000000_000000000_0_00_1000#32 = .ok .s2dbuild := by decide
theorem test_decode_s2dupdate : decode 0b0000000000000000_000000000_0_00_1001#32 = .ok .s2dupdate := by decide
theorem test_decode_s2dfree : decode 0b0000000000000000_000000000_0_00_1010#32 = .ok .s2dfree := by decide
theorem test_decode_shutdown : decode 0b0000000000000000_000000000_0_00_1111#32 = .ok .shutdown := by decide

/-- `RSV` bit 15 set in a PARSE* word, `LOSS` set in BEGINP, an unassigned `OP` (R77). -/
theorem test_decode_illegal :
    decode 0x000B8032#32 = .error .reservedBits ∧ decode 0x00000041#32 = .error .strayOperand ∧
    decode 0x0000000E#32 = .error .unassignedOp := by decide

/-- R80's two examples. -/
theorem test_encode_examples :
    encode (.parse11 .single false 11) = 0x000B0032#32 ∧ encode (.parse12 .begins true 23) = 0x00170053#32 := by decide

/-- The decoder by the opcode table's numbering (R73). -/
theorem test_decodeTableWord :
    decodeTableWord 32 0x00040036 = some (.yuv2rgb .single false 4) ∧ decodeTableWord 32 0x00010001 = none := by decide

/-! ## Well-formedness: a length above 16 bits has no word (R76) -/

theorem test_wellFormed_refuses :
    (Instr.parse11 .single false 65536).wellFormed = false ∧ (Instr.parse12 .single false 65536).wellFormed = false ∧
    (Instr.parse6 .single false 65536).wellFormed = false ∧ (Instr.parse10 .single false 65536).wellFormed = false ∧
    (Instr.yuv2rgb .single false 65536).wellFormed = false := by decide

theorem test_wellFormed_accepts :
    (Instr.parse11 .single false 65535).wellFormed = true ∧ Instr.shutdown.wellFormed = true := by decide

/-! ## The commands -/

/-- What a next state shows through `f`; nothing for a fault or a refusal. -/
def after {α : Type} (r : Result) (f : State → α) : Option α :=
  match r with
  | .next t    => some (f t)
  | .fault _   => none
  | .refused _ => none

/-- A destination of `cap` bytes bound at 0x1000 and the payload at 0x2000. -/
def loaded (payload : List Byte) (cap : Word) : State :=
  { State.reset with
    srcBase := 0x2000#32, boundBase := 0x1000#32, boundCap := cap
    status := ⟨.ok, false, true, false, .ok⟩
    mem := State.reset.mem.writeBytes 0x2000 payload }

/-- R90's example. -/
theorem test_beginp :
    after (exec .beginp { State.reset with dstBase := 0x1000#32, dstCap := 64#32, wr := 6#32 })
      (fun t => (t.boundBase, t.boundCap, t.wr, t.status.word)) = some (0x1000#32, 64#32, 0#32, 0x20#32) := by decide

/-- R90: a range one byte past the top of the address space. -/
theorem test_beginp_wraps :
    after (exec .beginp { State.reset with dstBase := 0xFFFFFFFF#32, dstCap := 2#32 })
      (fun t => (t.boundBase, t.status.word)) = some (0#32, 5#32) := by decide

/-- V11-5's payload with the first four entries of its table: a sample at or above `SHIFT_COUNT` is stored as 0.
V11-3's second packet: residue 2 bits 11, then FF. -/
theorem test_parse11 :
    after (exec (.parse11 .single false 11)
        { loaded [0x00, 0x2F, 0xF9, 0xFF, 0xC0, 0x0F, 0xFE, 0x00, 0x00, 0x10, 0x03] 16#32 with
          shiftCount := 4#17, shiftAlloc := 4#17, s2d := [0#16, 1001#16, 1002#16, 1003#16] })
      (fun t => (t.mem.readBytes 0x1000 16, t.wr)) =
    some ([0xE9, 0x03, 0, 0, 0, 0, 0, 0, 0, 0, 0, 0, 0xEA, 0x03, 0xEB, 0x03], 16#32) ∧
    after (exec (.parse11 .middle false 1)
        { loaded [0xFF] 16#32 with
          wr := 4#32, codec := { State.reset.codec with u11 := ⟨2#4, 3#10⟩ } })
      (fun t => (regValue Config.lub t 0x80, t.wr)) = some (0x03FF000A#32, 4#32) := by decide +kernel

/-- V12-3's first packet: ten bytes carried. -/
theorem test_parse12_carry :
    after (exec (.parse12 .begins false 10)
        (loaded [0x00, 0x01, 0x11, 0x22, 0x23, 0x33, 0x44, 0x45, 0x55, 0x66] 32#32))
      (fun t => (regValue Config.lub t 0x8C, regValue Config.lub t 0xA0, regValue Config.lub t 0xA4,
        regValue Config.lub t 0xA8, t.wr)) =
    some (10#32, 0x22110100#32, 0x45443323#32, 0x00006655#32, 0#32) := by decide +kernel

/-- V12-5, n = 5: a whole triple, then a sample of two bytes with a zero-filled one. -/
theorem test_parse12_tail :
    (packet12 Config.lub [0xAB, 0xCD, 0xEF, 0x12, 0x34] true).1 = [0xABC, 0xDEF, 0x123, 0x400] := by decide +kernel

/-- V6-1. -/
theorem test_parse6 :
    after (exec (.parse6 .single false 3) (loaded [0x07, 0xFA, 0x95] 8#32))
      (fun t => (t.mem.readBytes 0x1000 8, t.wr, t.status.word)) =
    some ([0x01, 0x00, 0x3F, 0x00, 0x2A, 0x00, 0x15, 0x00], 8#32, 0x20#32) := by decide +kernel

/-- V6-2, n = 1: one whole sample and the zero-filled residue. -/
theorem test_parse6_tail :
    after (exec (.parse6 .single false 1) (loaded [0xFF] 4#32)) (fun t => t.mem.readBytes 0x1000 4) =
    some [0x3F, 0x00, 0x30, 0x00] := by decide +kernel

/-- V10-1. -/
theorem test_parse10 :
    after (exec (.parse10 .single false 5) (loaded [0xFF, 0xC0, 0x1A, 0xA9, 0x55] 8#32))
      (fun t => (t.mem.readBytes 0x1000 8, t.wr)) =
    some ([0xFF, 0x03, 0x01, 0x00, 0xAA, 0x02, 0x55, 0x01], 8#32) := by decide +kernel

/-- V10-3 on a destination that held EE: `LOSS` writes zeros. -/
theorem test_parse10_loss :
    after (exec (.parse10 .single true 5)
        { loaded [0xFF, 0xC0, 0x1A, 0xA9, 0x55] 8#32 with
          mem := (loaded [0xFF, 0xC0, 0x1A, 0xA9, 0x55] 8#32).mem.writeBytes 0x1000 [0xEE, 0xEE, 0xEE, 0xEE] })
      (fun t => (t.mem.readBytes 0x1000 8, t.wr)) = some ([0, 0, 0, 0, 0, 0, 0, 0], 8#32) := by decide +kernel

/-- VY-20, and VY-21's first packet: three bytes carried. -/
theorem test_yuv2rgb :
    after (exec (.yuv2rgb .single false 4) (loaded [0x5A, 0x51, 0xF0, 0xC8] 6#32))
      (fun t => (t.mem.readBytes 0x1000 6, t.wr)) = some ([0xD0, 0x1E, 0x03, 0xFF, 0x95, 0x7A], 6#32) ∧
    after (exec (.yuv2rgb .begins false 3) (loaded [0x5A, 0x51, 0xF0] 12#32))
      (fun t => (regValue Config.lub t 0x90, t.wr)) = some (0xF0515A03#32, 0#32) := by decide +kernel

/-- VY-4, VY-7, VY-10, VY-11, VY-12: the clamps, the floor, and which chroma byte is which. -/
theorem test_rgb :
    rgb 255 128 255 = [255, 181, 255] ∧ rgb 100 90 240 = [227, 49, 22] ∧ rgb 1 128 127 = [0, 1, 1] ∧
    rgb 0 255 128 = [0, 0, 255] ∧ rgb 255 0 128 = [255, 255, 0] := by decide +kernel

/-- V11-10 without a table: need 16 > 14; and P2's second PARSE11: rejected while `CORRUPT` is set. -/
theorem test_parse11_fails :
    after (exec (.parse11 .single false 11)
        (loaded [0x24, 0x71, 0x5B, 0xFF, 0x80, 0x00, 0x03, 0x00, 0x15, 0x55, 0x55] 14#32))
      (fun t => (t.status.word, t.wr, t.mem.read 0x1000)) = some (0x131#32, 0#32, 0#8) ∧
    after (exec (.parse11 .middle false 1)
        { loaded [0x24] 14#32 with status := ⟨.ok, true, true, true, .outputBufferOverflow⟩ })
      (fun t => (t.status.word, t.codec)) = some (0x171#32, State.reset.codec) := by decide +kernel

/-- `DEPTH_FN_LIN` of 95_test_vectors.md: (S2D_CAL0 + S2D_CAL1·s) / S2D_PSF. -/
def linDepth (r : S2dConfig) (s : Nat) : Option Rat :=
  some (mkRat ((r.cal0.toNat + r.cal1.toNat * s : Nat) : Int) r.psf.toNat)

/-- A configuration by the five registers of R28 and the two that `DEPTH_FN_LIN` reads. -/
def calibration (ms md minc maxc psf : Half) (cal0 cal1 : Word) : S2dConfig :=
  { State.reset.s2dConfig with maxShift := ms, maxDepth := md, minCutoff := minc, maxCutoff := maxc, psf := psf,
                               cal0 := cal0, cal1 := cal1 }

/-- The configuration of vector S1. -/
def s1 : S2dConfig := calibration 8 20 2 18 2 6 5

/-- S5's decreasing depth, 9 - s. -/
def fallingDepth (_ : S2dConfig) (s : Nat) : Option Rat := some (mkRat (9 - (s : Int)) 1)

/-- S5's configuration. -/
def s5 : S2dConfig := calibration 6 10 0 100 1 0 0

/-- S1, both tables; S3, two shifts of one depth; S4, depths above the maximum; S5, a falling depth. -/
theorem test_fill_build :
    fillS2d linDepth s1 9 21 = [0, 5, 8, 10, 13, 15, 0, 0, 0] ∧
    fillD2s linDepth s1 9 21 = [0, 0, 0, 0, 0, 1, 1, 1, 2, 2, 3, 3, 3, 4, 4, 5, 5, 5, 5, 5, 5] ∧
    fillD2s linDepth (calibration 8 10 0 100 2 2 1) 9 11 = [0, 1, 3, 5, 7, 7, 7, 7, 7, 7, 7] ∧
    fillS2d linDepth (calibration 6 10 0 100 1 0 4) 7 11 = [0, 4, 8, 0, 0, 0, 0] ∧
    fillD2s fallingDepth s5 7 11 = [0, 0, 0, 0, 5, 5, 5, 5, 5, 5, 5] := by decide +kernel

/-- S2: an update below the allocation; what is not refilled is cleared. -/
theorem test_fill_update :
    fillS2d linDepth (calibration 6 12 0 100 1 0 2) 9 21 = [0, 2, 4, 6, 8, 10, 0, 0, 0] ∧
    fillD2s linDepth (calibration 6 12 0 100 1 0 2) 9 21 =
      [0, 0, 1, 1, 2, 2, 3, 3, 4, 4, 5, 5, 5, 0, 0, 0, 0, 0, 0, 0, 0] := by decide +kernel

/-- S11: the loop is empty, whatever the depth function; S7: a zero pixel-size factor. -/
theorem test_s2dbuild :
    after (exec .s2dbuild { State.reset with s2dConfig := calibration 1 2 0 0 1 0 0 })
      (fun t => (t.s2d, t.d2s, t.shiftCount, t.depthAlloc, t.status.word)) =
    some ([0, 0], [0, 0, 0], 2#17, 3#17, 0x40#32) ∧
    after (exec .s2dbuild { State.reset with s2dConfig := calibration 8 20 2 18 0 6 5 })
      (fun t => (t.status.word, t.shiftAlloc)) = some (3#32, 0#17) := by decide +kernel

/-- S9: nothing allocated; S8: maxima over the allocation; an update to `S2D_MAX_SHIFT` = 1: the counts change, the allocation stays, the old entries are cleared. -/
theorem test_s2dupdate :
    after (exec .s2dupdate { State.reset with s2dConfig := s1 }) (fun t => t.status.word) = some 3#32 ∧
    after (exec .s2dupdate
        { State.reset with s2dConfig := calibration 9 20 2 18 2 6 5, shiftAlloc := 9#17, depthAlloc := 21#17,
                           shiftCount := 9#17, status := ⟨.ok, false, false, true, .ok⟩ })
      (fun t => (t.status.word, t.shiftCount)) = some (0x43#32, 9#17) ∧
    after (exec .s2dupdate
        { State.reset with s2dConfig := calibration 1 1 0 0 1 0 0, shiftAlloc := 3#17, depthAlloc := 2#17,
                           shiftCount := 3#17, depthCount := 2#17, s2d := [0, 7, 0], d2s := [0, 1],
                           status := ⟨.ok, false, false, true, .ok⟩ })
      (fun t => (t.s2d, t.d2s, t.shiftCount, t.shiftAlloc, t.status.word)) =
    some ([0, 0, 0], [0, 0], 2#17, 3#17, 0x40#32) := by decide +kernel

/-- S10. -/
theorem test_s2dfree :
    after (exec .s2dfree
        { State.reset with shiftAlloc := 2#17, depthAlloc := 1#17, shiftCount := 2#17, depthCount := 1#17,
                           s2d := [0, 7], d2s := [5], status := ⟨.ok, false, false, true, .ok⟩ })
      (fun t => (t.shiftAlloc, t.depthCount, t.status.word, regValue Config.lub t 0x40004, regValue Config.lub t 0x80000)) =
    some (0#17, 0#17, 0#32, 0#32, 0#32) := by decide +kernel

/-- R92: `STATUS[5:0]` = 0, `TBL` unchanged, the operand registers unchanged, the engines empty. -/
theorem test_shutdown :
    after (exec .shutdown
        { loaded [] 14#32 with status := ⟨.badCommand, true, true, true, .outputBufferOverflow⟩, wr := 2#32,
                               codec := { State.reset.codec with u11 := ⟨5#4, 0x11#10⟩, cy := [1] } })
      (fun t => (t.status.word, t.srcBase, t.boundCap, t.codec)) =
    some (0x40#32, 0x2000#32, 0#32, State.reset.codec) := by decide +kernel

/-! ## The host's moves -/

/-- R28: a 16-bit register ignores the upper half of the word written. -/
theorem test_write_half :
    after (step { State.reset with host := [.regWrite 0x20 4 0xABCD07FF#32] })
      (fun t => regValue Config.lub t 0x20) = some 0x7FF#32 := by decide +kernel

/-- V6-1's session as the host reads it: `WR`, `BOUND_BASE`, `BOUND_CAP` (R25), and a reserved offset (R31). -/
theorem test_read_session :
    after (exec (.parse6 .single false 3) (loaded [0x07, 0xFA, 0x95] 8#32))
      (fun t => [0x14, 0x18, 0x1C, 0x48].map (regValue Config.lub t)) = some [8#32, 0x1000#32, 8#32, 0#32] := by
  decide +kernel

/-- By hand, with the other bit order (A13): of 41 00 08 the low six bits 1, then bits 7:6 below bits 3:0 of the next byte. -/
theorem test_lsbFirst :
    (accPacket { Config.lub with bitOrder := .lsbFirst } 6 0 0 true [0x41, 0x00, 0x08]).1 = [1, 1, 0, 2] := by
  decide +kernel

/-- The little-endian bytes of a sample, and the big-endian ones of another implementation (R10). -/
theorem test_sampleBytes :
    sampleBytes Config.lub 0x1234#16 = [0x34, 0x12] ∧
    sampleBytes { Config.lub with bigEndian := true } 0x1234#16 = [0x12, 0x34] := by decide

/-- R30: the host reads `ID`. -/
theorem test_read_id :
    after (step { State.reset with host := [.regRead 0x44 4] }) (fun t => t.reads) = some [0x4C554201#32] := by
  decide +kernel

/-- R77: an illegal word. -/
theorem test_illegal_command :
    after (step (State.reset.withFetchWord 32 0x00000007)) (fun t => (t.status.word, t.host)) = some (5#32, []) := by
  decide +kernel

/-! ## Witnesses: states and operands that meet the hypotheses of each statement, at the ends of their ranges -/

/-- A next state is there when something can be read off it. -/
theorem next_of {r : Result} (h : after r (fun _ => true) = some true) : ∃ t, r = .next t := by
  unfold after at h
  split at h
  · exact ⟨_, rfl⟩
  · cases h
  · cases h

/-- The platform of State.reset admits every address (A4). -/
theorem admitted {s : State} (h : s.memAdmit = Config.admitAll) (a : Nat) (ha : a < 2 ^ 32) :
    mayRead s.config a = true ∧ mayWrite s.config a = true := by
  simp [mayRead, mayWrite, h, Config.admitAll, regionHolds]
  omega

/-- V6-1's payload and a destination that exactly holds its output. -/
def packet6 : State := loaded [0x07, 0xFA, 0x95] 8#32

theorem packet6_source : sourceAdmitted 3 packet6 := by
  intro a _ h
  have : packet6.srcBase.toNat = 0x2000 := rfl
  exact (admitted rfl a (by omega)).1

theorem packet6_destination : destinationAdmitted 8 packet6 := by
  intro a _ h
  have : packet6.boundBase.toNat + packet6.wr.toNat = 0x1000 := rfl
  exact (admitted rfl a (by omega)).2

/-- The fullest codec state the ranges of R35 to R39 allow. -/
def fullCodec : Codec :=
  { u11 := ⟨10#4, 1023#10⟩, c12 := List.replicate 23 0xA5#8, u6 := ⟨4#4, 15#4⟩, u10 := ⟨8#4, 255#8⟩,
    cy := [1#8, 2#8, 3#8] }

theorem fullCodec_inv : codecInv fullCodec := by decide +kernel

/-! ### Encoding -/

theorem witness_DecodeEncodeRoundTrip : (Instr.yuv2rgb .single true 65535).wellFormed = true := by decide

theorem witness_EncodeDecodeRoundTrip : decode 0xFFFF0076#32 = .ok (.yuv2rgb .single true 65535) := by decide

theorem witness_EncodeIsShiftFormula :
    65535 < 65536 ∧ Instr.beginp.len? = none ∧ Instr.shutdown.len? = none := by decide

/-! ### The step and the host's moves -/

theorem witness_StepRunsDecodedInstruction :
    { packet6 with host := [HostMove.regWrite 0 4 0x00030034#32] }.host = .regWrite 0 4 0x00030034#32 :: [] ∧
    decode 0x00030034#32 = .ok (.parse6 .single false 3) ∧ decode (BitVec.ofNat 32 0xF) = .ok .shutdown := by decide

theorem witness_IllegalWordSetsBadCommand :
    (∀ r ∈ opRows, ¬ 0x00000082#32 &&& r.mask = r.pattern) ∧ (∀ r ∈ opRows, ¬ 0x0000000E#32 &&& r.mask = r.pattern) ∧
    (∀ r ∈ opRows, ¬ 0xFFFF0008#32 &&& r.mask = r.pattern) := by decide

theorem witness_RegisterReadHasNoSideEffect :
    { packet6 with host := [HostMove.regRead 0xBFFFC 4] }.host = .regRead 0xBFFFC 4 :: [] ∧ 0xBFFFC % 4 = 0 ∧
    0xBFFFC < 0xC0000 := by decide

theorem witness_RegisterWriteReadsBack :
    { packet6 with host := [HostMove.regWrite 0x7C 4 0xFFFFFFFF#32] }.host = .regWrite 0x7C 4 0xFFFFFFFF#32 :: [] ∧
    0x7C % 4 = 0 ∧ 0x7C < 0xC0000 ∧ 0x7C ≠ 0 ∧ 0x7C ∈ wordOffsets ∧ 0x30 ∈ halfOffsets ∧
    0x44 ∉ wordOffsets ∧ 0x44 ∉ halfOffsets := by decide

theorem witness_ReadOnlyOffsetsIgnoreWrites :
    { packet6 with host := [HostMove.regWrite 0x14 4 1#32] }.host = .regWrite 0x14 4 1#32 :: [] ∧
    (∀ off ∈ [0x04, 0x14, 0x48, 0xFC, 0x40000, 0x80000, 0xBFFFC], off % 4 = 0 ∧ off < 0xC0000 ∧ off ≠ 0 ∧
      off ∉ wordOffsets ∧ off ∉ halfOffsets) := by decide

/-- A read-write register, and the last offset of the space. -/
theorem witness_RegisterWriteFrame :
    { packet6 with host := [HostMove.regWrite 0x24 4 0xABCD07FF#32] }.host = .regWrite 0x24 4 0xABCD07FF#32 :: [] ∧
    (∀ off ∈ [0x04, 0x08, 0x20, 0x24, 0x30, 0x60, 0x7C, 0xBFFFC], off % 4 = 0 ∧ off < 0xC0000 ∧ off ≠ 0) := by decide

theorem witness_UnsupportedAccessRefused :
    (2 ≠ 4 ∨ 0x08 % 4 ≠ 0 ∨ 0xC0000 ≤ 0x08) ∧ (4 ≠ 4 ∨ 0x0A % 4 ≠ 0 ∨ 0xC0000 ≤ 0x0A) ∧
    (4 ≠ 4 ∨ 0xC0000 % 4 ≠ 0 ∨ 0xC0000 ≤ 0xC0000) ∧
    { packet6 with host := [HostMove.regRead 0xC0000 4] }.host = .regRead 0xC0000 4 :: [] ∧
    { packet6 with host := [HostMove.regWrite 0x0A 4 1#32] }.host = .regWrite 0x0A 4 1#32 :: [] := by decide

theorem witness_HostMemoryMoves :
    stateInv packet6 ∧ 0xFFFFFFFF < 2 ^ 32 ∧
    { packet6 with host := [HostMove.memRead 0xFFFFFFFF] }.host = .memRead 0xFFFFFFFF :: [] ∧
    { packet6 with host := [HostMove.memWrite 0xFFFFFFFF 1] }.host = .memWrite 0xFFFFFFFF 1 :: [] := by
  decide +kernel

theorem witness_ResetMove : { packet6 with host := [HostMove.reset] }.host = .reset :: [] := by decide

/-- A reserved offset between registers, and the last one below the windows. -/
theorem witness_RegisterReadValues :
    0x48 < 0x40000 ∧ 0x48 ∉ registerOffsets ∧ 0x3FFFC < 0x40000 ∧ 0x3FFFC ∉ registerOffsets := by decide

theorem witness_TableWindows :
    65535 < 65536 ∧ 65535 < { packet6 with shiftAlloc := 65536#17 }.shiftAlloc.toNat ∧ ¬ 0 < packet6.depthAlloc.toNat := by
  decide

theorem witness_CarryRegisters :
    codecInv { packet6 with codec := fullCodec }.codec ∧ 22 < 24 ∧ 22 < fullCodec.c12.length ∧ 23 < 24 ∧
    ¬ 23 < fullCodec.c12.length := by decide +kernel

theorem witness_EngineRegisters : codecInv { packet6 with codec := fullCodec }.codec := by decide +kernel

/-! ### The PARSE* commands -/

theorem witness_SourceWrapIsBadCommand :
    { packet6 with srcBase := 0xFFFFFFFF#32 }.srcBase.toNat + 2 > 2 ^ 32 := by decide

theorem witness_CorruptRejectsUntilBegin :
    { packet6 with srcBase := 0xFFFFFFFF#32 }.srcBase.toNat + 1 ≤ 2 ^ 32 ∧ hasBegin .ends = false ∧
    { packet6 with status := ⟨.ok, true, true, false, .outputBufferOverflow⟩ }.status.corrupt = true := by decide

theorem witness_OverflowWritesNothing :
    parseRuns .single 3 { packet6 with boundCap := 7#32 } ∧ sourceAdmitted 3 { packet6 with boundCap := 7#32 } ∧
    { packet6 with boundCap := 7#32 }.wr.toNat + ParseOp.u6.need .single 3 { packet6 with boundCap := 7#32 } >
      { packet6 with boundCap := 7#32 }.boundCap.toNat :=
  ⟨by decide +kernel, packet6_source, by decide +kernel⟩

/-- Both faults occur: nothing admitted, and only the payload admitted. -/
theorem witness_ParseFaultsExactlyWhenUnadmitted :
    (stateInv { packet6 with memAdmit := [] } ∧ parseRuns .single 3 { packet6 with memAdmit := [] } ∧
      ¬ sourceAdmitted 3 { packet6 with memAdmit := [] }) ∧
    (stateInv { packet6 with memAdmit := [⟨0x2000, 3, true, false⟩] } ∧
      parseRuns .single 3 { packet6 with memAdmit := [⟨0x2000, 3, true, false⟩] } ∧
      sourceAdmitted 3 { packet6 with memAdmit := [⟨0x2000, 3, true, false⟩] } ∧
      { packet6 with memAdmit := [⟨0x2000, 3, true, false⟩] }.wr.toNat +
        ParseOp.u6.need .single 3 { packet6 with memAdmit := [⟨0x2000, 3, true, false⟩] } ≤
        { packet6 with memAdmit := [⟨0x2000, 3, true, false⟩] }.boundCap.toNat ∧
      ¬ destinationAdmitted (ParseOp.u6.need .single 3 { packet6 with memAdmit := [⟨0x2000, 3, true, false⟩] })
        { packet6 with memAdmit := [⟨0x2000, 3, true, false⟩] }) := by
  refine ⟨⟨by decide +kernel, by decide +kernel, ?_⟩, by decide +kernel, by decide +kernel, ?_, by decide +kernel, ?_⟩
  · intro h
    exact absurd (h 0x2000 (by decide) (by decide)) (by decide)
  · intro a h1 h2
    have e : ({ packet6 with memAdmit := [⟨0x2000, 3, true, false⟩] } : State).srcBase.toNat = 0x2000 := rfl
    simp [mayRead, regionHolds]
    omega
  · intro h
    exact absurd (h 0x1000 (by decide) (by decide +kernel)) (by decide)

theorem witness_ParseCompletes :
    stateInv packet6 ∧ parseRuns .single 3 packet6 ∧ sourceAdmitted 3 packet6 ∧
    packet6.wr.toNat + ParseOp.u6.need .single 3 packet6 ≤ packet6.boundCap.toNat ∧
    destinationAdmitted (ParseOp.u6.need .single 3 packet6) packet6 := by
  have h : ParseOp.u6.need .single 3 packet6 = 8 := by decide +kernel
  exact ⟨by decide +kernel, by decide +kernel, packet6_source, by rw [h]; decide, by rw [h]; exact packet6_destination⟩

theorem witness_NeedIsExact : codecInv fullCodec := fullCodec_inv

theorem witness_LargestNeed : codecInv { packet6 with codec := fullCodec }.codec ∧ 65535 < 65536 := by decide +kernel

theorem witness_BeginForgetsCodecState : hasBegin .begins = true ∧ packet6.srcBase.toNat + 3 ≤ 2 ^ 32 := by decide

theorem witness_LossZeroesOutput :
    stateInv packet6 ∧ ∃ t, exec (ParseOp.u6.instr .single false 3) packet6 = .next t :=
  ⟨by decide +kernel, next_of (by decide +kernel)⟩

theorem witness_EnginesAreDisjoint : ∃ t, exec (ParseOp.u6.instr .ends false 3) packet6 = .next t :=
  next_of (by decide +kernel)

/-- A command that succeeds and a command that fails. -/
theorem witness_ParseFrame :
    stateInv packet6 ∧ (∃ t, exec (ParseOp.u6.instr .single false 3) packet6 = .next t) ∧
    after (exec (ParseOp.u10.instr .single false 6) packet6) (fun t => t.status.err) = some .outputBufferOverflow := by
  refine ⟨by decide +kernel, next_of (by decide +kernel), by decide +kernel⟩

theorem witness_AccumulatorReadsStream : 0 < 1 ∧ 0 < 11 := by decide

theorem witness_ElevenStatesOfU11 :
    255 < 2 ^ 8 ∧ 31 < 2 ^ 5 ∧ 3 < 2 ^ 2 ∧ 1023 < 2 ^ 10 ∧ 127 < 2 ^ 7 ∧ 15 < 2 ^ 4 ∧ 1 < 2 ^ 1 ∧ 511 < 2 ^ 9 ∧
    63 < 2 ^ 6 ∧ 7 < 2 ^ 3 ∧ (List.replicate 11 0xFF#8).length = 11 := by decide

theorem witness_ThreeStatesOfU6 : 3 < 2 ^ 2 ∧ 15 < 2 ^ 4 ∧ (List.replicate 3 0xFF#8).length = 3 := by decide

theorem witness_FiveStatesOfU10 :
    255 < 2 ^ 8 ∧ 63 < 2 ^ 6 ∧ 15 < 2 ^ 4 ∧ 3 < 2 ^ 2 ∧ (List.replicate 5 0xFF#8).length = 5 := by decide

/-- V6-1's packet and the last of its four samples. -/
theorem witness_UnpackersStoreTheStream :
    stateInv packet6 ∧ (ParseOp.u6, 6) ∈ [(ParseOp.u11, 11), (ParseOp.u12, 12), (ParseOp.u6, 6), (ParseOp.u10, 10)] ∧
    packet6.srcBase.toNat + 3 ≤ 2 ^ 32 ∧ sourceAdmitted 3 packet6 ∧
    packet6.wr.toNat + 2 * ((8 * 3 + 6 - 1) / 6) ≤ packet6.boundCap.toNat ∧
    destinationAdmitted (2 * ((8 * 3 + 6 - 1) / 6)) packet6 ∧ 3 < (8 * 3 + 6 - 1) / 6 :=
  ⟨by decide +kernel, by decide, by decide, packet6_source, by decide, packet6_destination, by decide⟩

/-- VY-20's packet, and the last byte of its macropixel. -/
def packetYuv : State := loaded [0x5A, 0x51, 0xF0, 0xC8] 6#32

theorem witness_ConverterStoresMacropixels :
    stateInv packetYuv ∧ packetYuv.srcBase.toNat + 4 ≤ 2 ^ 32 ∧ sourceAdmitted 4 packetYuv ∧
    packetYuv.wr.toNat + 6 * (4 / 4) ≤ packetYuv.boundCap.toNat ∧ destinationAdmitted (6 * (4 / 4)) packetYuv ∧
    0 < 4 / 4 ∧ 5 < 6 := by
  refine ⟨by decide +kernel, by decide, ?_, by decide, ?_, by decide, by decide⟩
  · intro a _ h
    have : packetYuv.srcBase.toNat = 0x2000 := rfl
    exact (admitted rfl a (by omega)).1
  · intro a _ h
    have : packetYuv.boundBase.toNat + packetYuv.wr.toNat = 0x1000 := rfl
    exact (admitted rfl a (by omega)).2

theorem witness_SplitInvariance : [[0x24#8, 0x71#8, 0x5B#8], [0xFF#8], []] ≠ [] := by decide

theorem witness_MessageCount : [([] : List Byte)] ≠ [] := by decide

/-- V6-3: one message in two packets. -/
theorem witness_MessageLeavesItsOutput :
    stateInv packet6 ∧ [(0x2000#32, 1), (0x2001#32, 2)] ≠ [] ∧
    (∀ p ∈ [((0x2000#32 : Word), 1), (0x2001#32, 2)], ∀ a, p.1.toNat ≤ a → a < p.1.toNat + p.2 →
      ¬ (packet6.boundBase.toNat + packet6.wr.toNat ≤ a ∧ a < packet6.boundBase.toNat + packet6.boundCap.toNat)) ∧
    ∃ t, sendMessage .u6 false true [(0x2000#32, 1), (0x2001#32, 2)] packet6 = some t := by
  refine ⟨by decide +kernel, by decide, ?_, Option.isSome_iff_exists.1 (by decide +kernel)⟩
  intro p hp a h1 h2 h3
  have e : packet6.boundBase.toNat = 0x1000 ∧ packet6.boundCap.toNat = 8 := ⟨rfl, rfl⟩
  simp only [List.mem_cons, List.not_mem_nil, or_false] at hp
  rcases hp with rfl | rfl <;> simp at h1 <;> omega

/-! ### Tables -/

/-- S1: the first and the last valid shift, the depth of the first, and the shifts on either side of the range. -/
theorem witness_ForwardTableContents :
    s1.maxShift.toNat < 9 ∧ validAt linDepth s1 1 5 ∧ validAt linDepth s1 5 15 ∧
    (linDepth s1 1 = some (11 / 2) ∧ (s1.minCutoff.toNat : Rat) < 11 / 2 ∧ (11 / 2 : Rat) < s1.maxCutoff.toNat ∧
      (11 / 2 : Rat).floor ≤ (s1.maxDepth.toNat : Int)) ∧
    (¬ ∃ d, validAt linDepth s1 0 d) ∧ (¬ ∃ d, validAt linDepth s1 6 d) ∧ (¬ ∃ d, validAt linDepth s1 8 d) := by
  refine ⟨by decide, by decide +kernel, by decide +kernel, by decide +kernel, ?_, ?_, ?_⟩
  · rintro ⟨d, h, -⟩
    omega
  · rintro ⟨d, -, -, h⟩
    have : validDepth linDepth s1 6 = none := by decide +kernel
    rw [this] at h
    cases h
  · rintro ⟨d, -, h, -⟩
    exact absurd h (by decide)

/-- The valid shifts of S1 and of S5, with their depths. -/
theorem valid_s1 {s d : Nat} (h : validAt linDepth s1 s d) :
    (s, d) = (1, 5) ∨ (s, d) = (2, 8) ∨ (s, d) = (3, 10) ∨ (s, d) = (4, 13) ∨ (s, d) = (5, 15) := by
  obtain ⟨h1, h2, h3⟩ := h
  have e : s1.maxShift.toNat = 8 := rfl
  rw [e] at h2
  have table : validDepth linDepth s1 1 = some 5 ∧ validDepth linDepth s1 2 = some 8 ∧
      validDepth linDepth s1 3 = some 10 ∧ validDepth linDepth s1 4 = some 13 ∧ validDepth linDepth s1 5 = some 15 ∧
      validDepth linDepth s1 6 = none ∧ validDepth linDepth s1 7 = none := by decide +kernel
  interval_cases s <;> simp [table] at h3 <;> simp [h3]

theorem valid_s5 {s d : Nat} (h : validAt fallingDepth s5 s d) :
    (s, d) = (1, 8) ∨ (s, d) = (2, 7) ∨ (s, d) = (3, 6) ∨ (s, d) = (4, 5) ∨ (s, d) = (5, 4) := by
  obtain ⟨h1, h2, h3⟩ := h
  have e : s5.maxShift.toNat = 6 := rfl
  rw [e] at h2
  have table : validDepth fallingDepth s5 1 = some 8 ∧ validDepth fallingDepth s5 2 = some 7 ∧
      validDepth fallingDepth s5 3 = some 6 ∧ validDepth fallingDepth s5 4 = some 5 ∧
      validDepth fallingDepth s5 5 = some 4 := by decide +kernel
  interval_cases s <;> simp [table] at h3 <;> simp [h3]

theorem rises_s1 : depthRises linDepth s1 := by
  intro s s' d d' h h' _
  have := valid_s1 h
  have := valid_s1 h'
  simp only [Prod.mk.injEq] at *
  omega

/-- S1 at depth 9, between the valid depths 8 and 10; at 20, above the last; at 4, below the first; at 21, above `md`. -/
theorem witness_InverseTableOfRisingDepth :
    s1.maxDepth.toNat < 22 ∧ depthRises linDepth s1 ∧
    (validAt linDepth s1 2 8 ∧ 8 ≤ 9 ∧ 9 ≤ s1.maxDepth.toNat ∧
      ∀ s' d', validAt linDepth s1 s' d' → 2 < s' → 9 < d') ∧
    (validAt linDepth s1 5 15 ∧ 15 ≤ 20 ∧ 20 ≤ s1.maxDepth.toNat ∧
      ∀ s' d', validAt linDepth s1 s' d' → 5 < s' → 20 < d') ∧
    (∀ s d, validAt linDepth s1 s d → 4 < d) ∧ s1.maxDepth.toNat < 21 := by
  refine ⟨by decide, rises_s1, ⟨by decide +kernel, by decide, by decide, ?_⟩,
    ⟨by decide +kernel, by decide, by decide, ?_⟩, ?_, by decide⟩ <;> intro s d h
  · have := valid_s1 h
    simp only [Prod.mk.injEq] at this
    omega
  · have := valid_s1 h
    simp only [Prod.mk.injEq] at this
    omega
  · have := valid_s1 h
    simp only [Prod.mk.injEq] at this
    omega

theorem witness_InverseTableOfFallingDepth :
    s5.maxDepth.toNat < 11 ∧ depthFalls fallingDepth s5 ∧ validAt fallingDepth s5 5 4 ∧
    (∀ s' d', validAt fallingDepth s5 s' d' → s' ≤ 5) ∧ (4 ≤ 10 ∧ 10 ≤ s5.maxDepth.toNat) ∧ ¬ 4 ≤ 3 := by
  refine ⟨by decide, ?_, by decide +kernel, ?_, by decide, by decide⟩
  · intro s s' d d' h h' _
    have := valid_s5 h
    have := valid_s5 h'
    simp only [Prod.mk.injEq] at *
    omega
  · intro s d h
    have := valid_s5 h
    simp only [Prod.mk.injEq] at this
    omega

theorem witness_InverseOfForwardTable :
    s1.maxShift.toNat < 9 ∧ s1.maxDepth.toNat < 21 ∧ depthRises linDepth s1 ∧ validAt linDepth s1 5 15 :=
  ⟨by decide, by decide, rises_s1, by decide +kernel⟩

theorem witness_OnlyBuildAndUpdateWriteTables :
    (Instr.s2dfree ≠ .s2dbuild ∧ Instr.s2dfree ≠ .s2dupdate ∧ ∃ t, exec .s2dfree packet6 = .next t) ∧
    { packet6 with host := [HostMove.regWrite 0x40000 4 9#32] }.host = .regWrite 0x40000 4 9#32 :: [] ∧ 0x40000 ≠ 0 ∧
    ∃ t, step { packet6 with host := [HostMove.regWrite 0x40000 4 9#32] } = .next t :=
  ⟨⟨by decide, by decide, _, rfl⟩, rfl, by decide, _, rfl⟩

/-- Two states that differ in entries at and above the allocations only. -/
theorem witness_SpareTableEntriesUnobservable :
    stateInv { packet6 with shiftAlloc := 1#17, depthAlloc := 1#17, s2d := [0, 5], d2s := [0],
                            status := ⟨.ok, false, true, true, .ok⟩, host := [.regRead 0x40004 4] } ∧
    sameButSpareEntries
      { packet6 with shiftAlloc := 1#17, depthAlloc := 1#17, s2d := [0, 5], d2s := [0],
                     status := ⟨.ok, false, true, true, .ok⟩, host := [.regRead 0x40004 4] }
      { packet6 with shiftAlloc := 1#17, depthAlloc := 1#17, s2d := [0, 6], d2s := [0, 9],
                     status := ⟨.ok, false, true, true, .ok⟩, host := [.regRead 0x40004 4] } :=
  ⟨by decide +kernel, rfl, by decide +kernel, by decide +kernel⟩

/-! ### The whole machine -/

theorem witness_CommandsNeverWriteOperands : ∃ t, exec .shutdown packet6 = .next t := ⟨_, rfl⟩

theorem witness_NeverBadPacketFormat :
    packet6.status.cerr ≠ .badPacketFormat ∧ ∃ t, exec (.parse6 .single false 3) packet6 = .next t :=
  ⟨by decide, next_of (by decide +kernel)⟩

theorem witness_InvariantKeptByStep :
    stateInv (packet6.withFetchWord 32 0x00030034) ∧ ∃ t, step (packet6.withFetchWord 32 0x00030034) = .next t :=
  ⟨by decide +kernel, next_of (by decide +kernel)⟩

theorem witness_MemoryReadAfterWrite : packet6.mem.wf ∧ 0x2002 < 0x2000 + [1#8, 0#8, 2#8].length := by decide +kernel

end Sys2Proof.Tests
end

namespace Sys2Proof.Machine

/-! ### Reading after a list of bytes is stored -/

/-- A read after a store: the stored byte on the range, the byte before it elsewhere (R10, R50). -/
theorem Memory.read_writeBytes {m : Memory} (a x : Nat) (bs : List Byte) (h : m.wf) :
    (m.writeBytes a bs).read x = if a ≤ x ∧ x < a + bs.length then bs.getD (x - a) 0#8 else m.read x := by
  induction bs generalizing m a with
  | nil => simp only [Memory.writeBytes, List.length_nil]; rw [if_neg (by omega)]
  | cons b bs ih =>
    rw [Memory.writeBytes, ih (a + 1) (Memory.write_wf a b h), Memory.read_write a x b h, List.length_cons]
    rcases Nat.lt_trichotomy x a with hlt | rfl | hgt
    · rw [if_neg (by omega), if_neg (by omega), if_neg (by omega)]
    · rw [if_neg (by omega), if_pos rfl, if_pos (by omega), Nat.sub_self, List.getD_cons_zero]
    · have hidx : x - a = x - (a + 1) + 1 := by omega
      by_cases hin : x < a + (bs.length + 1)
      · rw [if_pos (by omega), if_pos (by omega), hidx, List.getD_cons_succ]
      · rw [if_neg (by omega), if_neg (by omega), if_neg (by omega)]

/-- Settles O59: the read-after-store law, by induction on the bytes stored. -/
theorem memoryReadAfterWrite : Obligations.MemoryReadAfterWrite :=
  fun _ a x bs h => Memory.read_writeBytes a x bs h

end Sys2Proof.Machine

namespace Sys2Proof.Machine

/-! ## What an engine emits and the state it leaves (R101, R107, R110, R130) -/

/-! ### The accumulator engines: how many samples a packet gives, and the residue it leaves (R101, R102, R107) -/

/-- The loop of R102 takes the whole samples of `nb` bits and leaves a residue that fits. -/
theorem drain_count {bpp : Nat} (hp : 0 < bpp) (k nb acc : Nat) (hk : nb ≤ k) (ha : acc < 2 ^ nb) :
    (drain bpp k nb acc).1.length = nb / bpp ∧ (drain bpp k nb acc).2.1 = nb % bpp ∧
      (drain bpp k nb acc).2.2 < 2 ^ (nb % bpp) := by
  induction k generalizing nb acc with
  | zero =>
    obtain rfl : nb = 0 := by omega
    simpa [drain] using ha
  | succ k ih =>
    unfold drain
    by_cases h : bpp ≤ nb
    · obtain ⟨h1, h2, h3⟩ := ih (nb - bpp) (acc % 2 ^ (nb - bpp)) (by omega) (Nat.mod_lt _ (Nat.two_pow_pos _))
      rw [if_pos h, Nat.div_eq_sub_div hp h, Nat.mod_eq_sub_mod h]
      exact ⟨by simp [h1], h2, h3⟩
    · rw [if_neg h, Nat.div_eq_of_lt (by omega), Nat.mod_eq_of_lt (by omega)]
      exact ⟨rfl, rfl, ha⟩

/-- One byte of R102. -/
theorem accByte_count {bpp : Nat} (hp : 0 < bpp) {nb acc : Nat} (ha : acc < 2 ^ nb) (b : Byte) :
    (accByte bpp nb acc b).1.length = (nb + 8) / bpp ∧ (accByte bpp nb acc b).2.1 = (nb + 8) % bpp ∧
      (accByte bpp nb acc b).2.2 < 2 ^ ((nb + 8) % bpp) := by
  refine drain_count hp _ _ _ (Nat.le_refl _) ?_
  have := b.isLt
  rw [Nat.pow_add]
  omega

/-- The bytes of a packet. -/
theorem accBytes_count {bpp : Nat} {nb acc : Nat} (hn : nb < bpp) (ha : acc < 2 ^ nb) (bs : List Byte) :
    (accBytes bpp nb acc bs).1.length = (nb + 8 * bs.length) / bpp ∧
      (accBytes bpp nb acc bs).2.1 = (nb + 8 * bs.length) % bpp ∧
      (accBytes bpp nb acc bs).2.2 < 2 ^ ((nb + 8 * bs.length) % bpp) := by
  have hp : 0 < bpp := by omega
  induction bs generalizing nb acc with
  | nil => simp [accBytes, Nat.div_eq_of_lt hn, Nat.mod_eq_of_lt hn, ha]
  | cons b bs ih =>
    obtain ⟨h1, h2, h3⟩ := accByte_count hp ha b
    obtain ⟨i1, i2, i3⟩ := ih (h2 ▸ Nat.mod_lt _ hp) (h2 ▸ h3)
    have hsum : nb + 8 * (bs.length + 1) = (nb + 8) % bpp + 8 * bs.length + bpp * ((nb + 8) / bpp) := by
      have := Nat.mod_add_div (nb + 8) bpp
      omega
    rw [h2] at i1 i2 i3
    simp only [accBytes, List.length_append, List.length_cons, h1, i1, i2, h2]
    rw [hsum, Nat.add_mul_div_left _ _ hp, Nat.add_mul_mod_self_left]
    exact ⟨Nat.add_comm _ _, rfl, i3⟩

/-- A packet gives as many samples as `need` says (R101). -/
theorem accPacket_length (cfg : Config) {bpp nb acc : Nat} (hn : nb < bpp) (ha : acc < 2 ^ nb) (last : Bool)
    (payload : List Byte) :
    sampleSize cfg * (accPacket cfg bpp nb acc last payload).1.length = accNeed cfg bpp nb last payload.length := by
  obtain ⟨h1, h2, -⟩ := accBytes_count hn ha (payload.map (streamByte cfg.bitOrder))
  rw [List.length_map] at h1 h2
  cases last
  · simp [accPacket, accNeed, h1]
  · cases hf : cfg.tailFlush
    · simp [accPacket, accNeed, accTail, h1, hf]
    · by_cases hr : (nb + 8 * payload.length) % bpp = 0
      · simp [accPacket, accNeed, accTail, h1, h2, hf, hr]
      · simp [accPacket, accNeed, accTail, h1, h2, hf, hr]

/-- A packet leaves fewer residual bits than a sample has, an even number where `bpp` is even, with a value that fits
them (R35 to R37). -/
theorem accPacket_residue (cfg : Config) {bpp nb acc : Nat} (hn : nb < bpp) (he : bpp % 2 = 0 → nb % 2 = 0)
    (ha : acc < 2 ^ nb) (last : Bool) (payload : List Byte) :
    (accPacket cfg bpp nb acc last payload).2.1 < bpp ∧
      (bpp % 2 = 0 → (accPacket cfg bpp nb acc last payload).2.1 % 2 = 0) ∧
      (accPacket cfg bpp nb acc last payload).2.2 < 2 ^ (accPacket cfg bpp nb acc last payload).2.1 := by
  obtain ⟨-, h2, h3⟩ := accBytes_count hn ha (payload.map (streamByte cfg.bitOrder))
  rw [← h2] at h3
  cases last
  · refine ⟨?_, fun hb => ?_, h3⟩
    · exact h2 ▸ Nat.mod_lt _ (by omega)
    · have hdvd : 2 ∣ bpp := Nat.dvd_of_mod_eq_zero hb
      show (accBytes bpp nb acc _).2.1 % 2 = 0
      rw [h2, Nat.mod_mod_of_dvd _ hdvd]
      have := he hb
      omega
  · exact ⟨by simpa [accPacket] using Nat.zero_lt_of_lt hn, fun _ => rfl, by simp [accPacket]⟩

/-- No residual bits are in range. -/
theorem accumInv_empty {bpp w : Nat} (h : 0 < bpp) : accumInv bpp (⟨0#4, 0#w⟩ : Accum w) :=
  ⟨h, fun _ => rfl, by simp⟩

/-- A residue in range keeps its range in the register fields, where those are wide enough (R35 to R37). -/
theorem accumInv_residue {bpp w : Nat} {r : Nat × Nat} (hb : bpp ≤ 16) (hw : r.1 ≤ w) (hn : r.1 < bpp)
    (he : bpp % 2 = 0 → r.1 % 2 = 0) (ha : r.2 < 2 ^ r.1) : accumInv bpp (residue w r) := by
  have h1 : (residue w r).nb.toNat = r.1 := by
    simp only [residue, BitVec.toNat_ofNat]
    omega
  have h2 : (residue w r).acc.toNat = r.2 := by
    simp only [residue, BitVec.toNat_ofNat]
    exact Nat.mod_eq_of_lt (lt_of_lt_of_le ha (Nat.pow_le_pow_right (by omega) hw))
  unfold accumInv
  rw [h1, h2]
  exact ⟨hn, he, ha⟩

/-! ### The 12-bit engine (R110, R111) -/

theorem tailSamples_length (bs : List Byte) : (tailSamples bs).length = (2 * bs.length + 2) / 3 := by
  induction bs using tailSamples.induct with
  | case1 b0 b1 b2 bs ih =>
    simp only [tailSamples, tripleSamples, List.length_append, List.length_cons, List.length_nil, ih]
    omega
  | case2 b0 b1 => simp [tailSamples]
  | case3 b0 => simp [tailSamples]
  | case4 => simp [tailSamples]

theorem groupSamples_length (bs : List Byte) : (groupSamples bs).length = 2 * (bs.length / 3) := by
  induction bs using groupSamples.induct with
  | case1 b0 b1 b2 bs ih =>
    simp only [groupSamples, tripleSamples, List.length_append, List.length_cons, List.length_nil, ih]
    omega
  | case2 bs h =>
    match bs, h with
    | [], _ => simp [groupSamples]
    | [_], _ => simp [groupSamples]
    | [_, _], _ => simp [groupSamples]
    | b0 :: b1 :: b2 :: bs, h => exact absurd rfl (h b0 b1 b2 bs)

theorem groupsSamples_length (g : Nat) (bs : List Byte) (h : 24 * g ≤ bs.length) :
    (groupsSamples g bs).length = 16 * g := by
  induction g generalizing bs with
  | zero => rfl
  | succ g ih =>
    have hd : 24 * g ≤ (bs.drop 24).length := by
      rw [List.length_drop]
      omega
    rw [groupsSamples, List.length_append, groupSamples_length, ih _ hd, List.length_take]
    omega

/-- A packet gives as many samples as `need` says (R110). -/
theorem packet12_length (cfg : Config) (bs : List Byte) (last : Bool) :
    sampleSize cfg * (packet12 cfg bs last).1.length = need12 cfg bs.length last := by
  have hg := groupsSamples_length (bs.length / 24) (bs.map (streamByte cfg.bitOrder)) (by
    rw [List.length_map]
    omega)
  cases last
  · simp [packet12, need12, hg]
  · cases hf : cfg.tailFlush
    · simp [packet12, need12, hg, hf]
    · have hl : bs.length - 24 * (bs.length / 24) = bs.length % 24 := by omega
      simp [packet12, need12, hg, hf, tailSamples_length, hl]

/-- Less than a group is carried (R38). -/
theorem packet12_carry (cfg : Config) (bs : List Byte) (last : Bool) : (packet12 cfg bs last).2.length ≤ 23 := by
  cases last
  · simp only [packet12, Bool.false_eq_true, if_false, List.length_drop]
    omega
  · simp [packet12]

/-! ### The converter (R130, R132) -/

theorem macropixels_length (bs : List Byte) :
    (macropixels bs).1.length = 6 * (bs.length / 4) ∧ (macropixels bs).2.length ≤ 3 := by
  induction bs using macropixels.induct with
  | case1 u y1 v y2 bs ih =>
    obtain ⟨h1, h2⟩ := ih
    refine ⟨?_, h2⟩
    simp only [macropixels, macropixel, rgb, List.length_append, List.length_cons, List.length_nil, h1]
    omega
  | case2 bs h =>
    match bs, h with
    | [], _ => simp [macropixels]
    | [_], _ => simp [macropixels]
    | [_, _], _ => simp [macropixels]
    | [_, _, _], _ => simp [macropixels]
    | u :: y1 :: v :: y2 :: bs, h => exact absurd rfl (h u y1 v y2 bs)

/-! ### Every engine -/

/-- An engine emits as many bytes as its `need` says (R101, R110, R130). -/
theorem run_length (k : ParseOp) {c : Codec} (hc : codecInv c) (look : Nat → Half) (last loss : Bool)
    (payload : List Byte) :
    (k.engine.run look c last loss payload).1.length = k.engine.need c last payload.length := by
  obtain ⟨⟨n11, -, a11⟩, ⟨n6, -, a6⟩, ⟨n10, -, a10⟩, -, -⟩ := hc
  cases k with
  | u11 => exact (emitSamples_length _ _ _ _).trans (accPacket_length _ n11 a11 _ _)
  | u6 => exact (emitSamples_length _ _ _ _).trans (accPacket_length _ n6 a6 _ _)
  | u10 => exact (emitSamples_length _ _ _ _).trans (accPacket_length _ n10 a10 _ _)
  | u12 =>
    refine ((emitSamples_length _ _ _ _).trans (packet12_length _ _ _)).trans ?_
    rw [List.length_append]
    rfl
  | yuv =>
    show ((macropixels _).1.map _).length = _
    rw [List.length_map, (macropixels_length _).1, List.length_append]
    rfl

/-- Every stored sample has two bytes and every macropixel six, so `WR` stays even (R25). -/
theorem need_even (k : ParseOp) (c : Codec) (last : Bool) (len : Nat) : k.engine.need c last len % 2 = 0 := by
  cases k with
  | u11 => exact Nat.mul_mod_right 2 _
  | u6 => exact Nat.mul_mod_right 2 _
  | u10 => exact Nat.mul_mod_right 2 _
  | u12 => exact Nat.mul_mod_right 2 _
  | yuv =>
    show 6 * _ % 2 = 0
    omega

/-- Step 3 of R100 leaves the engines in their ranges. -/
theorem codecInv_restart (k : ParseOp) {c : Codec} (hc : codecInv c) : codecInv (k.engine.restart c) := by
  obtain ⟨h11, h6, h10, h12, hy⟩ := hc
  cases k with
  | u11 => exact ⟨accumInv_empty (by decide), h6, h10, h12, hy⟩
  | u6 => exact ⟨h11, accumInv_empty (by decide), h10, h12, hy⟩
  | u10 => exact ⟨h11, h6, accumInv_empty (by decide), h12, hy⟩
  | u12 => exact ⟨h11, h6, h10, Nat.zero_le _, hy⟩
  | yuv => exact ⟨h11, h6, h10, h12, Nat.zero_le _⟩

/-- A packet leaves the engines in their ranges (R35 to R39). -/
theorem codecInv_run (k : ParseOp) {c : Codec} (hc : codecInv c) (look : Nat → Half) (last loss : Bool)
    (payload : List Byte) : codecInv (k.engine.run look c last loss payload).2 := by
  obtain ⟨h11, h6, h10, h12, hy⟩ := hc
  cases k with
  | u11 =>
    obtain ⟨hn, he, ha⟩ := h11
    obtain ⟨rn, re, ra⟩ := accPacket_residue Config.lub hn he ha last payload
    exact ⟨accumInv_residue (by decide) (by omega) rn re ra, h6, h10, h12, hy⟩
  | u6 =>
    obtain ⟨hn, he, ha⟩ := h6
    obtain ⟨rn, re, ra⟩ := accPacket_residue Config.lub hn he ha last payload
    exact ⟨h11, accumInv_residue (by decide) (by have := re rfl; omega) rn re ra, h10, h12, hy⟩
  | u10 =>
    obtain ⟨hn, he, ha⟩ := h10
    obtain ⟨rn, re, ra⟩ := accPacket_residue Config.lub hn he ha last payload
    exact ⟨h11, h6, accumInv_residue (by decide) (by have := re rfl; omega) rn re ra, h12, hy⟩
  | u12 => exact ⟨h11, h6, h10, packet12_carry _ _ _, hy⟩
  | yuv =>
    refine ⟨h11, h6, h10, h12, ?_⟩
    cases last
    · exact (macropixels_length _).2
    · exact Nat.zero_le _

end Sys2Proof.Machine

namespace Sys2Proof.Machine

/-! ## What each command and each register write can do -/

/-! ### The commands that are no PARSE* command -/

/-- Everything BEGINP that answers a next state can have done (R90). -/
theorem beginp_next {s t : State} (h : exec .beginp s = .next t) :
    (2 ^ 32 < s.dstBase.toNat + s.dstCap.toNat ∧ t = setErr .badCommand s) ∨
    (s.dstBase.toNat + s.dstCap.toNat ≤ 2 ^ 32 ∧
      t = setErr .ok { s with boundBase := s.dstBase, boundCap := s.dstCap, wr := 0#32,
                              status := { s.status with bound := true } }) := by
  change beginp s.config s = .next t at h
  unfold beginp at h
  split at h
  · cases h
    exact .inl ⟨‹_›, rfl⟩
  · cases h
    exact .inr ⟨Nat.le_of_not_lt ‹_›, rfl⟩

/-- Everything S2DBUILD that answers a next state can have done (R140). -/
theorem s2dbuild_next {s t : State} (h : exec .s2dbuild s = .next t) :
    t = setErr .invalidConfig s ∨ t = setErr .allocFailure s ∨ t = setErr .ok (fill s.config (allocate s)) := by
  simp only [exec, execS2dbuild, s2dbuild] at h
  split at h
  · cases h
    exact .inl rfl
  · split at h
    · cases h
      exact .inr (.inl rfl)
    · cases h
      exact .inr (.inr rfl)

/-- Everything S2DUPDATE that answers a next state can have done (R141). -/
theorem s2dupdate_next {s t : State} (h : exec .s2dupdate s = .next t) :
    t = setErr .invalidConfig s ∨
    (s.status.tbl = true ∧ s.s2dConfig.maxShift.toNat + 1 ≤ s.shiftAlloc.toNat ∧
      s.s2dConfig.maxDepth.toNat + 1 ≤ s.depthAlloc.toNat ∧ t = setErr .ok (fill s.config s)) := by
  simp only [exec, execS2dupdate, s2dupdate] at h
  split at h
  · cases h
    exact .inl rfl
  rename_i htbl
  split at h
  · cases h
    exact .inl rfl
  rename_i halloc
  split at h
  · cases h
    exact .inl rfl
  · cases h
    exact .inr ⟨by simpa using htbl, by omega, by omega, rfl⟩

/-! ### Which engine's state a PARSE* command touches (R40) -/

/-- An engine's own state put back changes nothing. -/
theorem ParseOp.graft_self (k : ParseOp) (c : Codec) : k.graft c c = c := by cases k <;> rfl

/-- Step 3 of R100 touches the engine's own state only. -/
theorem ParseOp.graft_restart (k : ParseOp) (c : Codec) : k.graft (k.engine.restart c) c = k.engine.restart c := by
  cases k <;> rfl

/-- A packet touches the engine's own state only. -/
theorem ParseOp.graft_run (k : ParseOp) (look : Nat → Half) (c : Codec) (last loss : Bool) (bs : List Byte) :
    k.graft (k.engine.run look c last loss bs).2 c = (k.engine.run look c last loss bs).2 := by cases k <;> rfl

/-- Step 3 of R100 gives the codec state the operation runs with. -/
theorem beginReset_codec (k : ParseOp) (frag : Frag) (s : State) :
    (beginReset k.engine frag s).codec = k.start frag s := by
  rw [beginReset_eq]
  rfl

theorem ParseOp.graft_start (k : ParseOp) (frag : Frag) (s : State) :
    k.graft (k.start frag s) s.codec = k.start frag s := by
  unfold ParseOp.start
  split
  · exact k.graft_restart s.codec
  · exact k.graft_self s.codec

/-- What two changes of one engine's state leave, they leave together. -/
theorem ParseOp.graft_trans (k : ParseOp) {c d e : Codec} (hd : k.graft d c = d) (he : k.graft e d = e) :
    k.graft e c = e := by
  rw [← he, ← hd]
  cases k <;> rfl

/-- The parts of the state a PARSE* command can change (R40, R51). -/
theorem parse_frame {k : ParseOp} {frag : Frag} {loss : Bool} {len : Nat} {s t : State}
    (h : exec (k.instr frag loss len) s = .next t) :
    t = { s with mem := t.mem, codec := k.graft t.codec s.codec, wr := t.wr,
                 status := { s.status with err := t.status.err, corrupt := t.status.corrupt,
                                           cerr := t.status.cerr } } := by
  rw [exec_instr] at h
  have hstart : k.graft (beginReset k.engine frag s).codec s.codec = (beginReset k.engine frag s).codec := by
    rw [beginReset_codec, k.graft_start]
  rcases parse_next h with ⟨-, rfl⟩ | ⟨-, -, -, rfl⟩ | ⟨-, -, -, rfl⟩ | ⟨-, -, -, r, rfl, -, rfl⟩
  · simp only [setErr, k.graft_self]
  · simp only [setErr, k.graft_self]
  · simp only [setErr, markCorrupt, hstart]
    rw [beginReset_eq]
    cases hasBegin frag <;> rfl
  · simp only [setErr, k.graft_trans hstart (k.graft_run _ _ _ _ _)]
    rw [beginReset_eq]
    cases hasBegin frag <;> rfl

/-! ### A write of `CMD` (R27, R77) -/

/-- A word that decodes runs its command. -/
theorem runCommand_of_ok {w : Word} {i : Instr} {s : State} (h : decode w = .ok i) : runCommand w s = exec i s := by
  simp only [runCommand, h]

/-- A word that does not decode sets BadCommand. -/
theorem runCommand_of_error {w : Word} {e : DecodeError} {s : State} (h : decode w = .error e) :
    runCommand w s = .next (setErr .badCommand s) := by
  simp only [runCommand, h]
  rfl

/-- A host register write that answers a next state ran a command or wrote the register (R27, R52). -/
theorem hostRegWrite_next {off bytes : Nat} {w : Word} {s t : State} (h : hostRegWrite off bytes w s = .next t) :
    (off = 0 ∧ runCommand w s = .next t) ∨ (off ≠ 0 ∧ t = writeReg s off w) := by
  unfold hostRegWrite at h
  split at h
  · split at h
    · exact .inl ⟨‹_›, h⟩
    · cases h
      exact .inr ⟨‹_›, rfl⟩
  · cases h

/-! ### What a PARSE* command leaves -/

theorem codecInv_start (k : ParseOp) (frag : Frag) {s : State} (hc : codecInv s.codec) : codecInv (k.start frag s) := by
  unfold ParseOp.start
  split
  · exact codecInv_restart k hc
  · exact hc

/-- `STATUS` in range is so after step 3 of R100. -/
theorem statusInv_beginReset (e : Engine) (frag : Frag) {s : State} (h : statusInv s.status) :
    statusInv (beginReset e frag s).status := by
  obtain ⟨hcerr, herr⟩ := h
  cases hf : hasBegin frag
  · rw [beginReset_of_not hf]
    exact ⟨hcerr, herr⟩
  · rw [beginReset_of_begin hf]
    exact ⟨rfl, herr⟩

section Parse

variable {k : ParseOp} {frag : Frag} {loss : Bool} {len : Nat} {s t : State}

/-- A PARSE* command moves neither memory nor `WR`, or it succeeds and stores bytes of an even number that fit below
`BOUND_CAP`, `WR` advancing over them (R100, R161). -/
theorem parse_stores (hs : sessionInv s) (hc : codecInv s.codec) (h : exec (k.instr frag loss len) s = .next t) :
    (t.mem = s.mem ∧ t.wr = s.wr) ∨
    (t.status.err = .ok ∧ ∃ bs : List Byte, bs.length % 2 = 0 ∧ s.wr.toNat + bs.length ≤ s.boundCap.toNat ∧
      t.mem = s.mem.writeBytes (s.boundBase.toNat + s.wr.toNat) bs ∧ t.wr.toNat = s.wr.toNat + bs.length) := by
  rw [exec_instr] at h
  rcases parse_next h with ⟨-, rfl⟩ | ⟨-, -, -, rfl⟩ | ⟨-, -, -, rfl⟩ | ⟨-, -, hcap, r, hr, -, rfl⟩
  · exact .inl ⟨rfl, rfl⟩
  · exact .inl ⟨rfl, rfl⟩
  · rw [beginReset_eq]
    exact .inl ⟨rfl, rfl⟩
  · have hlen : r.1.length = k.engine.need (beginReset k.engine frag s).codec (hasEnd frag) len := by
      rw [hr, run_length k (by rw [beginReset_codec]; exact codecInv_start k frag hc), Memory.readBytes_length]
    refine .inr ⟨rfl, r.1, hlen ▸ need_even k _ _ _, hlen ▸ hcap, rfl, ?_⟩
    have hlt := s.boundCap.isLt
    simp only [setErr_wr, BitVec.toNat_ofNat, hlen]
    omega

/-- A PARSE* command keeps the engines in their ranges. -/
theorem parse_codecInv (hc : codecInv s.codec) (h : exec (k.instr frag loss len) s = .next t) : codecInv t.codec := by
  have hstart : codecInv (beginReset k.engine frag s).codec := beginReset_codec k frag s ▸ codecInv_start k frag hc
  rw [exec_instr] at h
  rcases parse_next h with ⟨-, rfl⟩ | ⟨-, -, -, rfl⟩ | ⟨-, -, -, rfl⟩ | ⟨-, -, -, r, rfl, -, rfl⟩
  · exact hc
  · exact hc
  · exact hstart
  · exact codecInv_run k hstart _ _ _ _

/-- A PARSE* command keeps `STATUS` in range: the one codec error is OutputBufferOverflow (R117). -/
theorem parse_statusInv (hs : statusInv s.status) (h : exec (k.instr frag loss len) s = .next t) :
    statusInv t.status := by
  obtain ⟨hcerr, -⟩ := statusInv_beginReset k.engine frag hs
  rw [exec_instr] at h
  rcases parse_next h with ⟨-, rfl⟩ | ⟨-, -, hcor, rfl⟩ | ⟨-, -, -, rfl⟩ | ⟨-, -, -, r, -, -, rfl⟩
  · exact ⟨hs.1, nofun⟩
  · refine ⟨hs.1, ?_⟩
    show s.status.cerr ≠ _
    rw [hs.1, if_pos hcor]
    nofun
  · exact ⟨rfl, nofun⟩
  · exact ⟨hcerr, nofun⟩

end Parse

end Sys2Proof.Machine

namespace Sys2Proof.Machine

/-! ## What PARSE* commands read and leave, and who writes operands and tables -/

/-- Settles O34: the frame, and the bytes stored being those `WR` advances over. -/
theorem parseFrame : Obligations.ParseFrame := by
  intro k frag loss len s t hinv h
  obtain ⟨hses, -, hcodec, -, hwf, -⟩ := hinv
  refine ⟨parse_frame h, ?_⟩
  rcases parse_stores hses hcodec h with ⟨hm, hw⟩ | ⟨hok, bs, -, -, hm, hw⟩
  · rw [hm, hw]
    exact ⟨Nat.le_refl _, fun _ _ => rfl, fun _ => ⟨rfl, rfl⟩⟩
  · refine ⟨by omega, fun a ha => ?_, fun herr => absurd hok herr⟩
    rw [hm, Memory.read_writeBytes _ _ _ hwf, if_neg (by omega)]

/-! ### What a PARSE* command does not read -/

/-- `f` on the next state of an answer; a fault or a refusal stays. -/
def mapNext (f : State → State) : Result → Result
  | .next s    => .next (f s)
  | .fault r   => .fault r
  | .refused r => .refused r

/-- `s` with its codec state changed by `c` and its table memories by `a` and `b`. -/
def State.rework (c : Codec → Codec) (a b : List Half → List Half) (s : State) : State :=
  { s with codec := c s.codec, s2d := a s.s2d, d2s := b s.d2s }

/-- The change `c` of the codec state is of other engines than `e`: `e` commutes with it (R40). -/
structure Engine.Ignores (e : Engine) (c : Codec → Codec) : Prop where
  restart : ∀ x, e.restart (c x) = c (e.restart x)
  need : ∀ x last len, e.need (c x) last len = e.need x last len
  run : ∀ look x last loss bs,
    e.run look (c x) last loss bs = ((e.run look x last loss bs).1, c (e.run look x last loss bs).2)

theorem Engine.ignores_id (e : Engine) : e.Ignores id := ⟨fun _ => rfl, fun _ _ _ => rfl, fun _ _ _ _ _ => rfl⟩

section Rework

variable {e : Engine} {c : Codec → Codec} {a b : List Half → List Half} {s : State}

@[simp] theorem rework_srcBase : (s.rework c a b).srcBase = s.srcBase := rfl
@[simp] theorem rework_boundBase : (s.rework c a b).boundBase = s.boundBase := rfl
@[simp] theorem rework_boundCap : (s.rework c a b).boundCap = s.boundCap := rfl
@[simp] theorem rework_wr : (s.rework c a b).wr = s.wr := rfl
@[simp] theorem rework_status : (s.rework c a b).status = s.status := rfl
@[simp] theorem rework_codec : (s.rework c a b).codec = c s.codec := rfl
@[simp] theorem memRead_rework (cfg : Config) (x n : Nat) : memRead cfg (s.rework c a b) x n = memRead cfg s x n := rfl
@[simp] theorem memWrite_rework (cfg : Config) (x : Nat) (bs : List Byte) :
    memWrite cfg (s.rework c a b) x bs = memWrite cfg s x bs := rfl

theorem beginReset_rework (h : e.Ignores c) (frag : Frag) :
    beginReset e frag (s.rework c a b) = (beginReset e frag s).rework c a b := by
  unfold beginReset
  split
  · simp only [rework_codec, h.restart]
    rfl
  · rfl

theorem store_rework (cfg : Config) (n : Nat) (r : List Byte × Codec) :
    store cfg n (r.1, c r.2) (s.rework c a b) = mapNext (State.rework c a b) (store cfg n r s) := by
  simp only [store, memWrite_rework, rework_boundBase, rework_wr]
  cases memWrite cfg s (s.boundBase.toNat + s.wr.toNat) r.1 <;> rfl

theorem parsePayload_rework (h : e.Ignores c) (hlut : lut (s.rework c a b) = lut s) (cfg : Config) (last loss : Bool)
    (len : Nat) :
    parsePayload cfg e last loss len (s.rework c a b) =
      mapNext (State.rework c a b) (parsePayload cfg e last loss len s) := by
  simp only [parsePayload, memRead_rework, rework_srcBase, rework_boundCap, rework_wr, rework_codec, h.need, h.run, hlut]
  cases memRead cfg s s.srcBase.toNat len with
  | error f => rfl
  | ok payload =>
    by_cases hcap : s.boundCap.toNat < s.wr.toNat + e.need s.codec last len
    · simp only [if_pos hcap]
      rfl
    · simp only [if_neg hcap, store_rework]

/-- A PARSE* command from a state that differs in what it does not read answers likewise. -/
theorem parse_rework (h : e.Ignores c) (hlut : lut (s.rework c a b) = lut s) (cfg : Config) (frag : Frag) (loss : Bool)
    (len : Nat) :
    parse cfg e frag loss len (s.rework c a b) = mapNext (State.rework c a b) (parse cfg e frag loss len s) := by
  have hlut' : lut ((beginReset e frag s).rework c a b) = lut (beginReset e frag s) := by
    rw [beginReset_eq]
    exact hlut
  simp only [parse, beginReset_rework h, parsePayload_rework h hlut', rework_srcBase, rework_status]
  split
  · rfl
  · split <;> rfl

end Rework

/-- An engine commutes with a change of the other engines' states (R40). -/
theorem ParseOp.engine_ignores (k : ParseOp) (d : Codec) : k.engine.Ignores (fun c => k.graft c d) := by
  cases k <;> exact ⟨fun _ => rfl, fun _ _ _ => rfl, fun _ _ _ _ _ => rfl⟩

/-- Settles O33: the frame, and that the sequence of R100 commutes with a change of the other engines' states. -/
theorem enginesAreDisjoint : Obligations.EnginesAreDisjoint := by
  intro k frag loss len s t d h
  have hcodec : t.codec = k.graft t.codec s.codec := congrArg State.codec (parse_frame h)
  refine ⟨hcodec.symm, ?_⟩
  rw [exec_instr] at h ⊢
  have := parse_rework (k.engine_ignores d) (a := id) (b := id) (s := s) rfl s.config frag loss len
  rw [h] at this
  exact this

/-! ### Operands and tables -/

/-- Settles O55: each command by what it can do. -/
theorem commandsNeverWriteOperands : Obligations.CommandsNeverWriteOperands := by
  intro i s t h
  rcases instr_cases i with ⟨k, frag, loss, len, rfl⟩ | rfl | rfl | rfl | rfl | rfl
  · rw [parse_frame h]
  · rcases beginp_next h with ⟨-, rfl⟩ | ⟨-, rfl⟩ <;> rfl
  · rcases s2dbuild_next h with rfl | rfl | rfl <;> rfl
  · rcases s2dupdate_next h with rfl | ⟨-, -, -, rfl⟩ <;> rfl
  · cases h
    rfl
  · cases h
    rfl

/-- Settles O53: no command but S2DBUILD and S2DUPDATE changes a table, nor does a host write but that of `CMD`. -/
theorem onlyBuildAndUpdateWriteTables : Obligations.OnlyBuildAndUpdateWriteTables := by
  constructor
  · intro i s t hb hu h
    rcases instr_cases i with ⟨k, frag, loss, len, rfl⟩ | rfl | rfl | rfl | rfl | rfl
    · rw [parse_frame h]
      exact ⟨rfl, rfl⟩
    · rcases beginp_next h with ⟨-, rfl⟩ | ⟨-, rfl⟩ <;> exact ⟨rfl, rfl⟩
    · exact absurd rfl hb
    · exact absurd rfl hu
    · cases h
      exact ⟨rfl, rfl⟩
    · cases h
      exact ⟨rfl, rfl⟩
  · intro s t off w rest hhost h0 h
    rw [step_of_move hhost] at h
    rcases hostRegWrite_next h with ⟨rfl, -⟩ | ⟨-, rfl⟩
    · exact absurd rfl h0
    · simp only [writeReg_s2d, writeReg_d2s, writeReg_shiftCount, writeReg_depthCount, writeReg_shiftAlloc,
        writeReg_depthAlloc, and_self]

end Sys2Proof.Machine

namespace Sys2Proof.Machine

/-! ## The invariant holds at reset and every step keeps it -/

theorem stateInv_resetOn (regions : List Region) : stateInv (State.resetOn regions) := by
  have hcodec : codecInv (State.resetOn regions).codec :=
    ⟨accumInv_empty (by decide), accumInv_empty (by decide), accumInv_empty (by decide), Nat.zero_le _, Nat.zero_le _⟩
  refine ⟨?_, ?_, hcodec, ⟨rfl, nofun⟩, ⟨List.Pairwise.nil, nofun⟩, nofun⟩
  · simp [sessionInv, State.resetOn]
  · simp [tableInv, State.resetOn]

/-- Settles O57: every number is 0 and every list empty. -/
theorem invariantAtReset : Obligations.InvariantAtReset := ⟨stateInv_resetOn _, stateInv_resetOn⟩

/-- The invariant speaks of `ERR` only to exclude BadPacketFormat. -/
theorem stateInv_setErr {e : ResultCode} {s : State} (he : e ≠ .badPacketFormat) (h : stateInv s) :
    stateInv (setErr e s) := by
  obtain ⟨hses, htab, hcod, ⟨hcerr, -⟩, hmem⟩ := h
  exact ⟨hses, htab, hcod, ⟨hcerr, he⟩, hmem⟩

/-- Bytes stored inside the address space keep memory in range (R50). -/
theorem memInv_writeBytes {m : Memory} {a : Nat} {bs : List Byte} (h : memInv m) (ha : a + bs.length ≤ 2 ^ 32) :
    memInv (m.writeBytes a bs) :=
  ⟨Memory.writeBytes_wf a bs h.1, Memory.writeBytes_bound h.2 ha⟩

theorem beginp_stateInv {s t : State} (hinv : stateInv s) (h : exec .beginp s = .next t) : stateInv t := by
  rcases beginp_next h with ⟨-, rfl⟩ | ⟨hfit, rfl⟩
  · exact stateInv_setErr nofun hinv
  · obtain ⟨-, htab, hcod, hst, hmem⟩ := hinv
    exact stateInv_setErr nofun ⟨⟨Nat.zero_le _, hfit, rfl⟩, htab, hcod, hst, hmem⟩

theorem parse_stateInv {k : ParseOp} {frag : Frag} {loss : Bool} {len : Nat} {s t : State} (hinv : stateInv s)
    (h : exec (k.instr frag loss len) s = .next t) : stateInv t := by
  obtain ⟨⟨hwr, htop, heven⟩, htab, hcod, hst, hmem⟩ := hinv
  have hframe := parse_frame h
  have hbase : t.boundBase = s.boundBase := by rw [hframe]
  have hcap : t.boundCap = s.boundCap := by rw [hframe]
  have htab' : tableInv t := by
    rw [hframe]
    exact htab
  refine ⟨?_, htab', parse_codecInv hcod h, parse_statusInv hst h, ?_⟩
  · unfold sessionInv
    rw [hbase, hcap]
    rcases parse_stores ⟨hwr, htop, heven⟩ hcod h with ⟨-, hw⟩ | ⟨-, bs, hbs, hfit, -, hw⟩
    · rw [hw]
      exact ⟨hwr, htop, heven⟩
    · exact ⟨hw ▸ hfit, htop, by omega⟩
  · rcases parse_stores ⟨hwr, htop, heven⟩ hcod h with ⟨hm, -⟩ | ⟨-, bs, -, hfit, hm, -⟩
    · rw [hm]
      exact hmem
    · rw [hm]
      exact memInv_writeBytes hmem (by omega)

/-- A fill over allocations that hold the configured tables leaves counts and tables in range (R29, R142). -/
theorem tableInv_fill {cfg : Config} {s : State} (hs : s.s2dConfig.maxShift.toNat + 1 ≤ s.shiftAlloc.toNat)
    (hd : s.s2dConfig.maxDepth.toNat + 1 ≤ s.depthAlloc.toNat) (hsmax : s.shiftAlloc.toNat ≤ 65536)
    (hdmax : s.depthAlloc.toNat ≤ 65536) (htbl : s.status.tbl = true) : tableInv (fill cfg s) := by
  simp only [tableInv, fill_shiftCount, fill_depthCount, fill_shiftAlloc, fill_depthAlloc, fill_s2d, fill_d2s, fill_status,
    fillS2d_length, fillD2s_length, toNat_ofNat_count, htbl, true_iff]
  omega

theorem s2dbuild_stateInv {s t : State} (hinv : stateInv s) (h : exec .s2dbuild s = .next t) : stateInv t := by
  rcases s2dbuild_next h with rfl | rfl | rfl
  · exact stateInv_setErr nofun hinv
  · exact stateInv_setErr nofun hinv
  · obtain ⟨hses, -, hcod, hst, hmem⟩ := hinv
    have hms := s.s2dConfig.maxShift.isLt
    have hmd := s.s2dConfig.maxDepth.isLt
    have htab : tableInv (fill s.config (allocate s)) := by
      apply tableInv_fill <;> simp only [allocate_shiftAlloc, allocate_depthAlloc, allocate_s2dConfig, allocate_status,
        toNat_ofNat_count] <;> omega
    exact stateInv_setErr nofun ⟨hses, htab, hcod, hst, hmem⟩

theorem s2dupdate_stateInv {s t : State} (hinv : stateInv s) (h : exec .s2dupdate s = .next t) : stateInv t := by
  rcases s2dupdate_next h with rfl | ⟨htbl, hms, hmd, rfl⟩
  · exact stateInv_setErr nofun hinv
  · obtain ⟨hses, ⟨-, hsmax, -, hdmax, -⟩, hcod, hst, hmem⟩ := hinv
    exact stateInv_setErr nofun ⟨hses, tableInv_fill hms hmd hsmax hdmax htbl, hcod, hst, hmem⟩

theorem s2dfree_stateInv {s t : State} (hinv : stateInv s) (h : exec .s2dfree s = .next t) : stateInv t := by
  obtain ⟨hses, -, hcod, hst, hmem⟩ := hinv
  cases h
  refine stateInv_setErr nofun ⟨hses, ?_, hcod, hst, hmem⟩
  simp [tableInv]

theorem shutdown_stateInv {s t : State} (hinv : stateInv s) (h : exec .shutdown s = .next t) : stateInv t := by
  obtain ⟨-, htab, -, ⟨-, herr⟩, hmem⟩ := hinv
  obtain ⟨hses, -, hcod, -⟩ := stateInv_resetOn Config.admitAll
  cases h
  exact stateInv_setErr nofun ⟨hses, htab, hcod, ⟨rfl, herr⟩, hmem⟩

/-- Every command keeps the invariant. -/
theorem exec_stateInv {i : Instr} {s t : State} (hinv : stateInv s) (h : exec i s = .next t) : stateInv t := by
  rcases instr_cases i with ⟨k, frag, loss, len, rfl⟩ | rfl | rfl | rfl | rfl | rfl
  · exact parse_stateInv hinv h
  · exact beginp_stateInv hinv h
  · exact s2dbuild_stateInv hinv h
  · exact s2dupdate_stateInv hinv h
  · exact s2dfree_stateInv hinv h
  · exact shutdown_stateInv hinv h

/-- A word read by the host is put on its own list (A3). -/
theorem answer_stateInv {w : Word} {s t : State} (hinv : stateInv s) (h : answer w s = .next t) : stateInv t := by
  cases h
  exact hinv

/-- A register write leaves everything the invariant speaks of. -/
theorem writeReg_stateInv {s : State} (off : Nat) (w : Word) (hinv : stateInv s) : stateInv (writeReg s off w) := by
  simpa only [stateInv, sessionInv, tableInv, writeReg_wr, writeReg_boundBase, writeReg_boundCap, writeReg_status,
    writeReg_shiftCount, writeReg_depthCount, writeReg_shiftAlloc, writeReg_depthAlloc, writeReg_s2d, writeReg_d2s,
    writeReg_codec, writeReg_mem] using hinv

/-- Every move of the host keeps the invariant. -/
theorem hostMove_stateInv {m : HostMove} {s t : State} (hinv : stateInv s) (h : hostMove m s = .next t) :
    stateInv t := by
  cases m with
  | regRead off bytes =>
    simp only [hostMove, hostRegRead] at h
    split at h
    · exact answer_stateInv hinv h
    · cases h
  | regWrite off bytes w =>
    rcases hostRegWrite_next h with ⟨-, hrun⟩ | ⟨-, rfl⟩
    · cases hdec : decode w with
      | ok i => exact exec_stateInv hinv (runCommand_of_ok hdec ▸ hrun)
      | error e =>
        rw [runCommand_of_error hdec] at hrun
        cases hrun
        exact stateInv_setErr nofun hinv
    · exact writeReg_stateInv off w hinv
  | memRead a =>
    simp only [hostMove, hostMemRead] at h
    split at h
    · exact answer_stateInv hinv h
    · cases h
  | memWrite a b =>
    simp only [hostMove, hostMemWrite] at h
    split at h
    · rename_i ha
      cases h
      obtain ⟨hses, htab, hcod, hst, hmem⟩ := hinv
      exact ⟨hses, htab, hcod, hst, memInv_writeBytes (bs := [b]) hmem ha⟩
    · cases h
  | reset =>
    cases h
    obtain ⟨-, -, -, -, hmem⟩ := hinv
    obtain ⟨hses, htab, hcod, hst, -⟩ := stateInv_resetOn s.memAdmit
    exact ⟨hses, htab, hcod, hst, hmem⟩

/-- Settles O58: the invariant by the host's moves, and for a command by what each command can do. -/
theorem invariantKeptByStep : Obligations.InvariantKeptByStep := by
  intro s t hinv h
  cases hhost : s.host with
  | nil =>
    rw [step_of_none hhost] at h
    cases h
    exact hinv
  | cons m rest =>
    rw [step_of_move hhost] at h
    exact hostMove_stateInv (s := { s with host := rest }) hinv h

end Sys2Proof.Machine

namespace Sys2Proof.Machine

/-! ## Table entries above the allocations cannot be observed (R33, R34, A7) -/

/-- Two answers that stop alike or are next states that differ in spare table entries only. -/
def sameAnswer : Result → Result → Prop
  | .next s,    r => ∃ t, r = .next t ∧ sameButSpareEntries s t
  | .fault f,   r => r = .fault f
  | .refused f, r => r = .refused f

theorem sameAnswer_refl (r : Result) : sameAnswer r r := by
  cases r
  case next s => exact ⟨s, rfl, rfl, fun _ _ => rfl, fun _ _ => rfl⟩
  all_goals rfl

theorem sameAnswer_ite {p : Prop} [Decidable p] {x x' y y' : Result} (hx : sameAnswer x x') (hy : sameAnswer y y') :
    sameAnswer (if p then x else y) (if p then x' else y') := by
  split
  · exact hx
  · exact hy

/-- `s` with other table memories. -/
abbrev State.withTables (s : State) (a b : List Half) : State := { s with s2d := a, d2s := b }

/-- The lists `a` and `b` agree with the table memories of `s` below the allocations. -/
def agreesBelow (s : State) (a b : List Half) : Prop :=
  (∀ i, i < s.shiftAlloc.toNat → s.s2d.getD i 0#16 = a.getD i 0#16) ∧
  (∀ i, i < s.depthAlloc.toNat → s.d2s.getD i 0#16 = b.getD i 0#16)

theorem sameButSpareEntries_iff {s t : State} :
    sameButSpareEntries s t ↔ ∃ a b, agreesBelow s a b ∧ t = s.withTables a b := by
  constructor
  · rintro ⟨ht, ha, hb⟩
    exact ⟨t.s2d, t.d2s, ⟨ha, hb⟩, ht⟩
  · rintro ⟨a, b, ⟨ha, hb⟩, rfl⟩
    exact ⟨rfl, ha, hb⟩

section Spare

variable {s : State} {a b : List Half}

/-- A next state with the entries below its allocations untouched, reached alike with the other lists. -/
theorem sameAnswer_next {s' : State} (h : agreesBelow s' a b) : sameAnswer (.next s') (.next (s'.withTables a b)) :=
  ⟨_, rfl, sameButSpareEntries_iff.2 ⟨a, b, h, rfl⟩⟩

/-- An answer that keeps tables and allocations, reached alike with the other lists. -/
theorem sameAnswer_mapNext {r : Result} (h : agreesBelow s a b)
    (hr : ∀ s', r = .next s' → s'.s2d = s.s2d ∧ s'.d2s = s.d2s ∧ s'.shiftAlloc = s.shiftAlloc ∧
      s'.depthAlloc = s.depthAlloc) :
    sameAnswer r (mapNext (State.withTables · a b) r) := by
  cases r with
  | next s' =>
    obtain ⟨h1, h2, h3, h4⟩ := hr s' rfl
    apply sameAnswer_next
    unfold agreesBelow
    rw [h1, h2, h3, h4]
    exact h
  | fault f => rfl
  | refused f => rfl

/-- The lookup reads below the count only, which is within the allocation (R29, R104). -/
theorem lut_withTables (hinv : tableInv s) (h : agreesBelow s a b) : lut (s.withTables a b) = lut s := by
  obtain ⟨hcount, -⟩ := hinv
  funext v
  unfold lut
  split
  · rename_i hv
    exact (h.1 v (lt_of_lt_of_le hv hcount)).symm
  · rfl

/-- A window shows entries below the allocation only (R54). -/
theorem windowWord_congr {x y : List Half} {alloc : BitVec 17}
    (h : ∀ i, i < alloc.toNat → x.getD i 0#16 = y.getD i 0#16) (i : Nat) : windowWord y alloc i = windowWord x alloc i := by
  unfold windowWord
  split
  · rename_i hi
    rw [h i hi]
  · rfl

theorem regValue_withTables (h : agreesBelow s a b) (cfg : Config) (off : Nat) :
    regValue cfg (s.withTables a b) off = regValue cfg s off := by
  unfold regValue
  rw [windowWord_congr h.1, windowWord_congr h.2]
  rfl

/-- Every command does the same whatever stands above the allocations. -/
theorem exec_withTables (hinv : tableInv s) (h : agreesBelow s a b) (i : Instr) :
    sameAnswer (exec i s) (exec i (s.withTables a b)) := by
  have hnext : ∀ e, sameAnswer (fail e s) (fail e (s.withTables a b)) := fun e => sameAnswer_next (s' := setErr e s) h
  rcases instr_cases i with ⟨k, frag, loss, len, rfl⟩ | rfl | rfl | rfl | rfl | rfl
  · have hmap : exec (k.instr frag loss len) (s.withTables a b) =
        mapNext (State.withTables · a b) (exec (k.instr frag loss len) s) := by
      rw [exec_instr, exec_instr]
      exact parse_rework k.engine.ignores_id (a := fun _ => a) (b := fun _ => b) (lut_withTables hinv h) _ _ _ _
    rw [hmap]
    refine sameAnswer_mapNext h fun s' hs' => ?_
    rw [parse_frame hs']
    exact ⟨rfl, rfl, rfl, rfl⟩
  · exact sameAnswer_ite (hnext _) (sameAnswer_next h)
  · exact sameAnswer_ite (hnext _) (sameAnswer_ite (hnext _) (sameAnswer_refl _))
  · exact sameAnswer_ite (hnext _) (sameAnswer_ite (hnext _) (sameAnswer_ite (hnext _) (sameAnswer_refl _)))
  · exact sameAnswer_next ⟨nofun, nofun⟩
  · exact sameAnswer_next h

theorem runCommand_withTables (hinv : tableInv s) (h : agreesBelow s a b) (w : Word) :
    sameAnswer (runCommand w s) (runCommand w (s.withTables a b)) := by
  cases hdec : decode w with
  | ok i =>
    rw [runCommand_of_ok hdec, runCommand_of_ok hdec]
    exact exec_withTables hinv h i
  | error e =>
    rw [runCommand_of_error hdec, runCommand_of_error hdec]
    exact sameAnswer_next h

theorem writeReg_withTables (off : Nat) (w : Word) :
    writeReg (s.withTables a b) off w = (writeReg s off w).withTables a b := by
  unfold writeReg
  split <;> rfl

theorem agreesBelow_writeReg (h : agreesBelow s a b) (off : Nat) (w : Word) : agreesBelow (writeReg s off w) a b := by
  simpa only [agreesBelow, writeReg_s2d, writeReg_d2s, writeReg_shiftAlloc, writeReg_depthAlloc] using h

/-- Every move of the host does the same whatever stands above the allocations. -/
theorem hostMove_withTables (hinv : tableInv s) (h : agreesBelow s a b) (m : HostMove) :
    sameAnswer (hostMove m s) (hostMove m (s.withTables a b)) := by
  cases m with
  | regRead off bytes =>
    simp only [hostMove, hostRegRead, regValue_withTables h]
    exact sameAnswer_ite (sameAnswer_next h) rfl
  | regWrite off bytes w =>
    simp only [hostMove, hostRegWrite, writeReg_withTables]
    exact sameAnswer_ite
      (sameAnswer_ite (runCommand_withTables hinv h w) (sameAnswer_next (agreesBelow_writeReg h off w))) rfl
  | memRead x => exact sameAnswer_ite (sameAnswer_next h) rfl
  | memWrite x v => exact sameAnswer_ite (sameAnswer_next h) rfl
  | reset => exact sameAnswer_refl _

end Spare

/-- Settles O54: a move of the host reads the tables only through the lookup and the windows. -/
theorem spareTableEntriesUnobservable : Obligations.SpareTableEntriesUnobservable := by
  intro s t hinv hst
  obtain ⟨-, htab, -⟩ := hinv
  obtain ⟨a, b, h, rfl⟩ := sameButSpareEntries_iff.1 hst
  have hsame : sameAnswer (step s) (step (s.withTables a b)) := by
    cases hhost : s.host with
    | nil =>
      rw [step_of_none hhost, step_of_none (s := s.withTables a b) hhost]
      exact sameAnswer_next h
    | cons m rest =>
      rw [step_of_move hhost, step_of_move (s := s.withTables a b) hhost]
      exact hostMove_withTables (s := { s with host := rest }) htab h m
  refine ⟨fun s' hs' => ?_, fun f hf => ?_, fun r hr => ?_⟩
  · rw [hs'] at hsame
    exact hsame
  · rw [hf] at hsame
    exact hsame
  · rw [hr] at hsame
    exact hsame

end Sys2Proof.Machine

namespace Sys2Proof.Machine

/-! ## Steps that run a command, and the host's registers -/

/-- Settles O7: the step is the write of `CMD`, and that runs the word's command. -/
theorem stepRunsDecodedInstruction : Obligations.StepRunsDecodedInstruction := by
  refine ⟨fun s w i rest hhost hdec => ?_, fun s n i hdec => ?_⟩
  · rw [step_of_command hhost, runCommand_of_ok hdec]
  · rw [step_of_command (rest := s.host) rfl, runCommand_of_ok hdec]
    rfl

/-! ### The register block: what a read returns (R24 to R39, R53) -/

/-- Below the windows a read shows the register block. -/
theorem regValue_of_lt {cfg : Config} {s : State} {off : Nat} (h : off < 0x40000) :
    regValue cfg s off = controlWord cfg s off := by
  unfold regValue
  rw [if_neg (by omega), if_neg (by omega)]

/-- An offset of the register block that is no register reads 0 (R31). -/
theorem controlWord_of_reserved {cfg : Config} {s : State} {off : Nat} (h : off ∉ registerOffsets) :
    controlWord cfg s off = 0#32 := by
  unfold controlWord
  split
  case h_37 => rfl
  all_goals exact absurd (by decide) h

/-- Settles O17: each register at its own offset. -/
theorem registerReadValues : Obligations.RegisterReadValues := by
  intro s
  have hhalf (x : Half) : (x.setWidth 32).toNat = x.toNat := BitVec.toNat_setWidth_of_le (by decide)
  have hcount (x : BitVec 17) : (x.setWidth 32).toNat = x.toNat := BitVec.toNat_setWidth_of_le (by decide)
  refine ⟨⟨rfl, rfl, rfl⟩, ⟨rfl, rfl, rfl⟩, ⟨hhalf _, hhalf _, hhalf _, hhalf _, hhalf _⟩,
    ⟨hcount _, hcount _, hcount _, hcount _⟩, rfl, ⟨rfl, rfl, rfl, rfl, rfl, rfl, rfl, rfl⟩, fun off hlt hoff => ?_⟩
  rw [regValue_of_lt hlt, controlWord_of_reserved hoff]

/-- Right after reset the register block reads 0 but at `ID`. -/
theorem controlWord_reset (off : Nat) :
    controlWord Config.lub State.reset off = if off = 0x44 then 0x4C554201#32 else 0#32 := by
  have hreg : ∀ off ∈ registerOffsets,
      controlWord Config.lub State.reset off = if off = 0x44 then 0x4C554201#32 else 0#32 := by decide
  by_cases h : off ∈ registerOffsets
  · exact hreg off h
  · rw [controlWord_of_reserved h, if_neg]
    rintro rfl
    exact h (by decide)

/-- Settles O16: the registers one by one, the windows by their empty allocations. -/
theorem resetRegistersRead : Obligations.ResetRegistersRead := by
  intro regions off
  have hempty (t : List Half) (i : Nat) : windowWord t 0#17 i = 0#32 := rfl
  by_cases hlt : off < 0x40000
  · rw [regValue_of_lt hlt]
    exact controlWord_reset off
  · rw [if_neg (by omega)]
    unfold regValue
    split
    · exact hempty _ _
    · rw [if_pos (by omega)]
      exact hempty _ _

/-! ### The register block: what a write does (R24, R28, R32) -/

/-- A 16-bit register takes the lower half of the word (R28). -/
theorem setWidth_half (w : Word) : w.setWidth 16 = BitVec.ofNat 16 (w.toNat % 2 ^ 16) := by
  apply BitVec.eq_of_toNat_eq
  simp

/-- What a host write to any offset but `CMD` leaves, register by register. -/
theorem writeReg_eq (s : State) (off : Nat) (w : Word) :
    writeReg s off w =
      { s with
        srcBase := if off = 0x08 then w else s.srcBase
        dstBase := if off = 0x0C then w else s.dstBase
        dstCap := if off = 0x10 then w else s.dstCap
        s2dConfig :=
          { maxShift  := if off = 0x20 then w.setWidth 16 else s.s2dConfig.maxShift
            maxDepth  := if off = 0x24 then w.setWidth 16 else s.s2dConfig.maxDepth
            minCutoff := if off = 0x28 then w.setWidth 16 else s.s2dConfig.minCutoff
            maxCutoff := if off = 0x2C then w.setWidth 16 else s.s2dConfig.maxCutoff
            psf       := if off = 0x30 then w.setWidth 16 else s.s2dConfig.psf
            cal0 := if off = 0x60 then w else s.s2dConfig.cal0
            cal1 := if off = 0x64 then w else s.s2dConfig.cal1
            cal2 := if off = 0x68 then w else s.s2dConfig.cal2
            cal3 := if off = 0x6C then w else s.s2dConfig.cal3
            cal4 := if off = 0x70 then w else s.s2dConfig.cal4
            cal5 := if off = 0x74 then w else s.s2dConfig.cal5
            cal6 := if off = 0x78 then w else s.s2dConfig.cal6
            cal7 := if off = 0x7C then w else s.s2dConfig.cal7 } } := by
  unfold writeReg
  split
  case h_4 h1 h2 h3 =>
    rw [if_neg h1, if_neg h2, if_neg h3]
    unfold writeS2dConfig
    split
    case h_14 => simp_all
    all_goals rfl
  all_goals rfl

/-- A read-only, reserved or window offset ignores a write (R25, R31, R54). -/
theorem writeReg_of_readOnly {s : State} {off : Nat} (w : Word) (hw : off ∉ wordOffsets) (hh : off ∉ halfOffsets) :
    writeReg s off w = s := by
  simp only [wordOffsets, halfOffsets, List.mem_cons, List.not_mem_nil, or_false, not_or] at hw hh
  simp only [writeReg_eq, hw, hh, if_false]

/-- Settles O12: a step that writes a register, and what `writeReg` leaves register by register. -/
theorem registerWriteFrame : Obligations.RegisterWriteFrame := by
  intro s off w rest hhost h4 hlt h0
  simp only [step_of_regWrite hhost h4 hlt h0, writeReg_eq, setWidth_half]

/-- Settles O11: at such an offset `writeReg` changes nothing. -/
theorem readOnlyOffsetsIgnoreWrites : Obligations.ReadOnlyOffsetsIgnoreWrites := by
  intro s off w rest hhost h4 hlt h0 hw hh
  rw [step_of_regWrite hhost h4 hlt h0, writeReg_of_readOnly w hw hh]

/-- A 16-bit register reads the lower half of what was written (R28). -/
theorem setWidth_setWidth_half (w : Word) : (w.setWidth 16).setWidth 32 = w &&& 0x0000FFFF#32 := by
  apply BitVec.eq_of_toNat_eq
  have h := w.isLt
  simp only [BitVec.toNat_setWidth, BitVec.toNat_and, BitVec.toNat_ofNat]
  rw [show 65535 % 2 ^ 32 = 2 ^ 16 - 1 from rfl, Nat.and_two_pow_sub_one_eq_mod]
  omega

/-- The written offset of the register block reads back. -/
theorem controlWord_writeReg_same (cfg : Config) (s : State) (off : Nat) (w : Word) :
    controlWord cfg (writeReg s off w) off = readBack off w (controlWord cfg s off) := by
  rw [writeReg_eq]
  unfold controlWord
  split
  case h_37 => simp_all [readBack, wordOffsets, halfOffsets]
  all_goals simp [readBack, wordOffsets, halfOffsets, setWidth_setWidth_half]

theorem controlWord_writeReg_other (cfg : Config) (s : State) {off off' : Nat} (w : Word) (h : off' ≠ off) :
    controlWord cfg (writeReg s off w) off' = controlWord cfg s off' := by
  rw [writeReg_eq]
  unfold controlWord
  split
  case h_37 => rfl
  all_goals simp only [h.symm, if_false]

/-- No read-write register is in a window (R53). -/
theorem readBack_of_window {off : Nat} (h : 0x40000 ≤ off) (w old : Word) : readBack off w old = old := by
  have hword : ∀ x ∈ wordOffsets, x < 0x40000 := by decide
  have hhalf : ∀ x ∈ halfOffsets, x < 0x40000 := by decide
  rw [readBack, if_neg fun hm => Nat.not_lt.2 h (hword off hm), if_neg fun hm => Nat.not_lt.2 h (hhalf off hm)]

/-- A register write does not show in the windows (R54). -/
theorem regValue_writeReg_of_window (cfg : Config) (s : State) (off : Nat) (w : Word) {off' : Nat} (h : 0x40000 ≤ off') :
    regValue cfg (writeReg s off w) off' = regValue cfg s off' := by
  simp only [regValue, writeReg_s2d, writeReg_d2s, writeReg_shiftAlloc, writeReg_depthAlloc, if_pos h]

/-- Settles O10: the written offset, another offset of the register block, or a window. -/
theorem registerWriteReadsBack : Obligations.RegisterWriteReadsBack := by
  intro s off w rest hhost h4 hlt h0
  refine ⟨_, step_of_regWrite hhost h4 hlt h0, writeReg_host _ _ _, fun off' => ?_⟩
  have hqueue : ∀ x, regValue Config.lub { s with host := rest } x = regValue Config.lub s x := fun _ => rfl
  by_cases hwin : 0x40000 ≤ off'
  · rw [regValue_writeReg_of_window _ _ _ _ hwin, hqueue]
    split
    · subst off'
      rw [readBack_of_window hwin]
    · rfl
  · rw [regValue_of_lt (by omega)]
    split
    · subst off'
      rw [controlWord_writeReg_same, ← regValue_of_lt (by omega), hqueue]
    · rw [controlWord_writeReg_other _ _ _ ‹_›, ← regValue_of_lt (by omega), hqueue]

/-! ### Fields side by side in a register -/

/-- A field put above another is its value times the power of two. -/
theorem toNat_or_shiftLeft {x y : Word} {n : Nat} (hx : x.toNat < 2 ^ n) (hy : y.toNat * 2 ^ n < 2 ^ 32) :
    (x ||| y <<< n).toNat = x.toNat + 2 ^ n * y.toNat := by
  rw [BitVec.toNat_or, BitVec.toNat_shiftLeft, Nat.shiftLeft_eq, Nat.mod_eq_of_lt hy, Nat.or_comm, Nat.mul_comm,
    ← Nat.two_pow_add_eq_or_of_lt hx, Nat.add_comm]

/-- An accumulator's register is its two fields (R35 to R37). -/
theorem accumWord_toNat {w : Nat} (hw : w ≤ 16) (a : Accum w) :
    (accumWord a).toNat = a.nb.toNat + 2 ^ 16 * a.acc.toNat := by
  have hnb : (a.nb.setWidth 32).toNat = a.nb.toNat := BitVec.toNat_setWidth_of_le (by decide)
  have hacc : (a.acc.setWidth 32).toNat = a.acc.toNat := BitVec.toNat_setWidth_of_le (by omega)
  have hlt := a.nb.isLt
  have hlt' : a.acc.toNat < 2 ^ 16 := lt_of_lt_of_le a.acc.isLt (Nat.pow_le_pow_right (by decide) hw)
  unfold accumWord
  rw [toNat_or_shiftLeft (by omega) (by omega), hnb, hacc]

/-- Four fields that end at bits 8, 16, 24 and 32 at most. -/
theorem toNat_four_bytes {x0 x1 x2 x3 : Word} (h0 : x0.toNat < 2 ^ 8) (h1 : x1.toNat < 2 ^ 8) (h2 : x2.toNat < 2 ^ 8)
    (h3 : x3.toNat < 2 ^ 8) :
    (x0 ||| x1 <<< 8 ||| x2 <<< 16 ||| x3 <<< 24).toNat =
      x0.toNat + 2 ^ 8 * x1.toNat + 2 ^ 16 * x2.toNat + 2 ^ 24 * x3.toNat := by
  have e1 : (x0 ||| x1 <<< 8).toNat = _ := toNat_or_shiftLeft h0 (by omega)
  have e2 : (x0 ||| x1 <<< 8 ||| x2 <<< 16).toNat = _ := toNat_or_shiftLeft (by omega) (by omega)
  rw [toNat_or_shiftLeft (by omega) (by omega), e2, e1]

theorem toNat_carryByte (c : List Byte) (i : Nat) : ((carryByte c i).setWidth 32).toNat = (c.getD i 0#8).toNat :=
  BitVec.toNat_setWidth_of_le (by decide)

theorem carryByte_lt (c : List Byte) (i : Nat) : ((carryByte c i).setWidth 32).toNat < 2 ^ 8 := by
  rw [toNat_carryByte]
  exact (c.getD i 0#8).isLt

/-- `STYUV` is its four fields (R39). -/
theorem yuvWord_toNat {c : List Byte} (hc : c.length ≤ 3) :
    (yuvWord c).toNat = c.length + 2 ^ 8 * (c.getD 0 0#8).toNat + 2 ^ 16 * (c.getD 1 0#8).toNat +
      2 ^ 24 * (c.getD 2 0#8).toNat := by
  have hlen : ((BitVec.ofNat 2 c.length).setWidth 32).toNat = c.length := by
    simp only [BitVec.toNat_setWidth, BitVec.toNat_ofNat]
    omega
  unfold yuvWord
  rw [toNat_four_bytes (by omega) (carryByte_lt c 0) (carryByte_lt c 1) (carryByte_lt c 2), hlen]
  simp only [toNat_carryByte]

/-- Settles O20: each register is its fields side by side. -/
theorem engineRegisters : Obligations.EngineRegisters := by
  intro s hc
  obtain ⟨-, -, -, -, hy⟩ := hc
  exact ⟨accumWord_toNat (by decide) _, accumWord_toNat (by decide) _, accumWord_toNat (by decide) _, yuvWord_toNat hy⟩

/-- A byte of `C12W(j)` is a byte of the carry buffer (R38). -/
theorem carryWord_byte (c : List Byte) (j r : Nat) (h : r < 4) :
    (carryWord c j).extractLsb' (8 * r) 8 = carryByte c (4 * j + r) := by
  have hword : (carryWord c j).toNat = _ := toNat_four_bytes (carryByte_lt c (4 * j)) (carryByte_lt c (4 * j + 1))
    (carryByte_lt c (4 * j + 2)) (carryByte_lt c (4 * j + 3))
  simp only [toNat_carryByte] at hword
  have h0 := (c.getD (4 * j) 0#8).isLt
  have h1 := (c.getD (4 * j + 1) 0#8).isLt
  have h2 := (c.getD (4 * j + 2) 0#8).isLt
  have h3 := (c.getD (4 * j + 3) 0#8).isLt
  apply BitVec.eq_of_toNat_eq
  rw [BitVec.extractLsb'_toNat, Nat.shiftRight_eq_div_pow, hword]
  unfold carryByte
  interval_cases r
  · simp only [Nat.add_zero]
    omega
  all_goals omega

/-- Settles O19: a byte of the words by its place in them. -/
theorem carryRegisters : Obligations.CarryRegisters := by
  intro s hc
  obtain ⟨-, -, -, h12, -⟩ := hc
  constructor
  · show ((BitVec.ofNat 5 s.codec.c12.length).setWidth 32).toNat = _
    simp only [BitVec.toNat_setWidth, BitVec.toNat_ofNat]
    omega
  · intro i hi
    have hword : ∀ j < 6, regValue Config.lub s (0xA0 + 4 * j) = carryWord s.codec.c12 j := by
      intro j hj
      interval_cases j <;> rfl
    rw [hword _ (by omega), carryWord_byte _ _ _ (by omega), Nat.div_add_mod, carryByte]
    split
    · rfl
    · exact List.getD_eq_default _ _ (by omega)

/-- Five fields at bits 3:0, 4, 5, 6 and 11:8. -/
theorem toNat_status_fields {x0 x1 x2 x3 x4 : Word} (h0 : x0.toNat < 2 ^ 4) (h1 : x1.toNat < 2) (h2 : x2.toNat < 2)
    (h3 : x3.toNat < 2) (h4 : x4.toNat < 2 ^ 4) :
    (x0 ||| x1 <<< 4 ||| x2 <<< 5 ||| x3 <<< 6 ||| x4 <<< 8).toNat =
      x0.toNat + 2 ^ 4 * x1.toNat + 2 ^ 5 * x2.toNat + 2 ^ 6 * x3.toNat + 2 ^ 8 * x4.toNat := by
  have e1 : (x0 ||| x1 <<< 4).toNat = _ := toNat_or_shiftLeft h0 (by omega)
  have e2 : (x0 ||| x1 <<< 4 ||| x2 <<< 5).toNat = _ := toNat_or_shiftLeft (by omega) (by omega)
  have e3 : (x0 ||| x1 <<< 4 ||| x2 <<< 5 ||| x3 <<< 6).toNat = _ := toNat_or_shiftLeft (by omega) (by omega)
  rw [toNat_or_shiftLeft (by omega) (by omega), e3, e2, e1]

/-- `STATUS` is its five fields (R26). -/
theorem Status.word_toNat (t : Status) :
    t.word.toNat = t.err.code.toNat + 2 ^ 4 * t.corrupt.toNat + 2 ^ 5 * t.bound.toNat + 2 ^ 6 * t.tbl.toNat +
      2 ^ 8 * t.cerr.code.toNat := by
  have hcode (e : ResultCode) : (e.code.setWidth 32).toNat = e.code.toNat := BitVec.toNat_setWidth_of_le (by decide)
  have hbit (b : Bool) : ((BitVec.ofBool b).setWidth 32).toNat = b.toNat := by cases b <;> rfl
  have hcodeLt (e : ResultCode) : (e.code.setWidth 32).toNat < 2 ^ 4 := hcode e ▸ e.code.isLt
  have hbitLt (b : Bool) : ((BitVec.ofBool b).setWidth 32).toNat < 2 := hbit b ▸ b.toNat_lt
  unfold Status.word
  rw [toNat_status_fields (hcodeLt _) (hbitLt _) (hbitLt _) (hbitLt _) (hcodeLt _)]
  simp only [hcode, hbit]

/-- Settles O21: the word is its fields side by side, each code its number. -/
theorem statusRegister : Obligations.StatusRegister := by
  intro s code
  have hcode (e : ResultCode) : code e = e.code.toNat := by cases e <;> rfl
  show s.status.word.toNat = _
  rw [Status.word_toNat, hcode, hcode]
  cases s.status.corrupt <;> cases s.status.bound <;> cases s.status.tbl <;> rfl

end Sys2Proof.Machine

namespace Sys2Proof.Machine

/-! ## The host's accesses, and when a PARSE* command has no meaning (R50 to R58) -/

/-! ### When a PARSE* command stops (R57, R100) -/

/-- Step 3 of R100 touches nothing that the read of the source and the write of the destination depend on. -/
@[simp] theorem beginReset_srcBase (e : Engine) (frag : Frag) (s : State) : (beginReset e frag s).srcBase = s.srcBase := by
  rw [beginReset_eq]

@[simp] theorem beginReset_boundBase (e : Engine) (frag : Frag) (s : State) :
    (beginReset e frag s).boundBase = s.boundBase := by rw [beginReset_eq]

@[simp] theorem beginReset_boundCap (e : Engine) (frag : Frag) (s : State) :
    (beginReset e frag s).boundCap = s.boundCap := by rw [beginReset_eq]

@[simp] theorem beginReset_wr (e : Engine) (frag : Frag) (s : State) : (beginReset e frag s).wr = s.wr := by
  rw [beginReset_eq]

@[simp] theorem lut_beginReset (e : Engine) (frag : Frag) (s : State) : lut (beginReset e frag s) = lut s := by
  rw [beginReset_eq]
  rfl

@[simp] theorem memRead_beginReset (cfg : Config) (e : Engine) (frag : Frag) (s : State) (a n : Nat) :
    memRead cfg (beginReset e frag s) a n = memRead cfg s a n := by
  rw [beginReset_eq]
  rfl

@[simp] theorem memWrite_beginReset (cfg : Config) (e : Engine) (frag : Frag) (s : State) (a : Nat) (bs : List Byte) :
    memWrite cfg (beginReset e frag s) a bs = memWrite cfg s a bs := by
  rw [beginReset_eq]
  rfl

/-- A message is lost at step 4 of R100 when it was lost before and the packet does not begin one. -/
theorem beginReset_corrupt (e : Engine) (frag : Frag) (s : State) :
    (beginReset e frag s).status.corrupt = (!hasBegin frag && s.status.corrupt) := by
  cases h : hasBegin frag
  · simp [beginReset_of_not h]
  · simp [beginReset_of_begin h]

section Stops

variable {k : ParseOp} {frag : Frag} {loss : Bool} {len : Nat} {s : State}

/-- A PARSE* command emits `need` bytes (R101, R110, R130). -/
theorem ParseOp.output_length (k : ParseOp) (frag : Frag) (loss : Bool) (len : Nat) (hc : codecInv s.codec) :
    (k.output frag loss len s).1.length = k.need frag len s := by
  unfold ParseOp.output
  rw [run_length k (codecInv_start k frag hc), Memory.readBytes_length]
  rfl

/-- A PARSE* command that fails check 2 or 4 of R100 ends there, with a result code. -/
theorem exec_of_not_parseRuns (h : ¬ parseRuns frag len s) : ∃ t, exec (k.instr frag loss len) s = .next t := by
  rw [exec_instr]
  unfold parse
  rw [config_addrW, beginReset_corrupt]
  by_cases hw : 2 ^ 32 < s.srcBase.toNat + len
  · exact ⟨_, if_pos hw⟩
  · have hlost : (!hasBegin frag && s.status.corrupt) = true := by
      cases hf : hasBegin frag <;> cases hcor : s.status.corrupt
      case false.true => rfl
      all_goals exact absurd ⟨by omega, by simp [hf, hcor]⟩ h
    rw [if_neg hw, if_pos hlost]
    exact ⟨_, rfl⟩

/-- A PARSE* command that passes checks 2 and 4 of R100 goes on with the payload. -/
theorem exec_of_parseRuns (h : parseRuns frag len s) :
    exec (k.instr frag loss len) s =
      parsePayload s.config k.engine (hasEnd frag) loss len (beginReset k.engine frag s) := by
  obtain ⟨hfit, hlive⟩ := h
  have hkept : (!hasBegin frag && s.status.corrupt) = false := by
    rcases hlive with h | h <;> simp [h]
  rw [exec_instr]
  unfold parse
  rw [config_addrW, beginReset_corrupt, if_neg (by omega), hkept, if_neg Bool.false_ne_true]

/-- Step 5 of R100 with a source byte not admitted (R57, A17). -/
theorem exec_of_not_sourceAdmitted (h : parseRuns frag len s) (hsrc : ¬ sourceAdmitted len s) :
    exec (k.instr frag loss len) s = .fault .sourceNotAdmitted := by
  rw [exec_of_parseRuns h]
  unfold parsePayload
  rw [memRead_beginReset, beginReset_srcBase]
  rcases memRead_cases s.config s s.srcBase.toNat len with ⟨hwrap, -⟩ | ⟨-, hadm, -⟩ | ⟨-, -, hread⟩
  · exact absurd h.1 (Nat.not_le_of_lt hwrap)
  · exact absurd hadm hsrc
  · rw [hread]

/-- Steps 7 to 9 of R100, the payload being read: the capacity check, then the bytes stored. -/
theorem exec_of_sourceAdmitted (h : parseRuns frag len s) (hsrc : sourceAdmitted len s) :
    exec (k.instr frag loss len) s =
      if s.boundCap.toNat < s.wr.toNat + k.need frag len s then
        failCodec .outputBufferOverflow (beginReset k.engine frag s)
      else store s.config (k.need frag len s) (k.output frag loss len s) (beginReset k.engine frag s) := by
  rw [exec_of_parseRuns h]
  unfold parsePayload
  rw [memRead_beginReset, beginReset_srcBase]
  rcases memRead_cases s.config s s.srcBase.toNat len with ⟨hwrap, -⟩ | ⟨-, -, hread⟩ | ⟨-, hadm, -⟩
  · exact absurd h.1 (Nat.not_le_of_lt hwrap)
  · rw [hread]
    simp only [beginReset_codec, beginReset_boundCap, beginReset_wr, lut_beginReset]
    rfl
  · exact absurd hsrc hadm

/-- The end of step 8 of R100 faults exactly when a byte about to be written is not admitted (R57, A17). -/
theorem store_output_cases (hses : sessionInv s) (hc : codecInv s.codec)
    (hcap : s.wr.toNat + k.need frag len s ≤ s.boundCap.toNat) :
    (destinationAdmitted (k.need frag len s) s ∧
      ∃ t, store s.config (k.need frag len s) (k.output frag loss len s) (beginReset k.engine frag s) = .next t) ∨
    (¬ destinationAdmitted (k.need frag len s) s ∧
      store s.config (k.need frag len s) (k.output frag loss len s) (beginReset k.engine frag s) =
        .fault .destinationNotAdmitted) := by
  obtain ⟨-, htop, -⟩ := hses
  have hlen := k.output_length frag loss len hc
  unfold store
  rw [memWrite_beginReset, beginReset_boundBase, beginReset_wr]
  rcases memWrite_cases s.config s (s.boundBase.toNat + s.wr.toNat) (k.output frag loss len s).1 with
    ⟨hwrap, -⟩ | ⟨-, hadm, hwrite⟩ | ⟨-, hadm, hwrite⟩
  · rw [config_addrW] at hwrap
    omega
  · rw [hlen] at hadm
    exact .inl ⟨hadm, _, by rw [hwrite]; rfl⟩
  · rw [hlen] at hadm
    exact .inr ⟨hadm, by rw [hwrite]⟩

/-- Everything a PARSE* command can answer, by its checks in the order of R100: there are two ways to stop. -/
theorem exec_instr_cases (hses : sessionInv s) (hc : codecInv s.codec) :
    (parseRuns frag len s ∧ ¬ sourceAdmitted len s ∧
      exec (k.instr frag loss len) s = .fault .sourceNotAdmitted) ∨
    (parseRuns frag len s ∧ sourceAdmitted len s ∧ s.wr.toNat + k.need frag len s ≤ s.boundCap.toNat ∧
      ¬ destinationAdmitted (k.need frag len s) s ∧
      exec (k.instr frag loss len) s = .fault .destinationNotAdmitted) ∨
    (¬ (parseRuns frag len s ∧ ¬ sourceAdmitted len s) ∧
      ¬ (parseRuns frag len s ∧ sourceAdmitted len s ∧ s.wr.toNat + k.need frag len s ≤ s.boundCap.toNat ∧
        ¬ destinationAdmitted (k.need frag len s) s) ∧
      ∃ t, exec (k.instr frag loss len) s = .next t) := by
  by_cases hrun : parseRuns frag len s
  case neg => exact .inr (.inr ⟨fun h => hrun h.1, fun h => hrun h.1, exec_of_not_parseRuns hrun⟩)
  by_cases hsrc : sourceAdmitted len s
  case neg => exact .inl ⟨hrun, hsrc, exec_of_not_sourceAdmitted hrun hsrc⟩
  have hexec := exec_of_sourceAdmitted (k := k) (loss := loss) hrun hsrc
  by_cases hcap : s.boundCap.toNat < s.wr.toNat + k.need frag len s
  · rw [if_pos hcap] at hexec
    exact .inr (.inr ⟨fun h => h.2 hsrc, fun ⟨_, _, hfit, _⟩ => by omega, _, hexec⟩)
  · rw [if_neg hcap] at hexec
    rw [hexec]
    rcases store_output_cases (loss := loss) hses hc (Nat.not_lt.1 hcap) with ⟨hdst, hnext⟩ | ⟨hdst, hfault⟩
    · exact .inr (.inr ⟨fun h => h.2 hsrc, fun ⟨_, _, _, hno⟩ => hno hdst, hnext⟩)
    · exact .inr (.inl ⟨hrun, hsrc, Nat.not_lt.1 hcap, hdst, hfault⟩)

end Stops

/-- Settles O27: the checks of R100 in their order leave the two faults, or a next state. -/
theorem parseFaultsExactlyWhenUnadmitted : Obligations.ParseFaultsExactlyWhenUnadmitted := by
  intro k frag loss len s hinv
  obtain ⟨hses, -, hc, -, -⟩ := hinv
  rcases exec_instr_cases (k := k) (frag := frag) (loss := loss) (len := len) hses hc with
    ⟨hrun, hsrc, h⟩ | ⟨hrun, hsrc, hcap, hdst, h⟩ | ⟨hnosrc, hnodst, t, h⟩
  · rw [h]
    exact ⟨⟨fun _ => ⟨hrun, hsrc⟩, fun _ => rfl⟩, ⟨nofun, fun hd => absurd hd.2.1 hsrc⟩, nofun, nofun⟩
  · rw [h]
    exact ⟨⟨nofun, fun hs => absurd hsrc hs.2⟩, ⟨fun _ => ⟨hrun, hsrc, hcap, hdst⟩, fun _ => rfl⟩, nofun, nofun⟩
  · rw [h]
    exact ⟨⟨nofun, fun hs => absurd hs hnosrc⟩, ⟨nofun, fun hd => absurd hd hnodst⟩, nofun, nofun⟩

/-! ### The host's own accesses (R50, R52, R54, R192) -/

/-- Settles O9: the step's answer goes to the host's list alone. -/
theorem registerReadHasNoSideEffect : Obligations.RegisterReadHasNoSideEffect := by
  intro s off rest hhost h4 hlt
  exact ⟨step_of_regRead hhost h4 hlt, rfl⟩

/-- The accesses R52 does not allow. -/
theorem legalAccess_eq_false {off bytes : Nat} (h : bytes ≠ 4 ∨ off % 4 ≠ 0 ∨ 0xC0000 ≤ off) :
    legalAccess off bytes = false := by
  rcases h with h | h | h <;> simp [legalAccess, h]

/-- Settles O13: both register moves ask first whether the access is allowed. -/
theorem unsupportedAccessRefused : Obligations.UnsupportedAccessRefused := by
  intro s off bytes w rest hbad
  have hillegal := legalAccess_eq_false hbad
  refine ⟨fun hhost => ?_, fun hhost => ?_⟩
  · rw [step_of_move hhost]
    simp only [hostMove, hostRegRead, hillegal, Bool.false_eq_true, if_false]
  · rw [step_of_move hhost]
    simp only [hostMove, hostRegWrite, hillegal, Bool.false_eq_true, if_false]

/-- Settles O14: the address exists, and a canonical memory reads back what was written. -/
theorem hostMemoryMoves : Obligations.HostMemoryMoves := by
  intro s a b rest hinv ha
  obtain ⟨-, -, -, -, hwf, -⟩ := hinv
  refine ⟨fun hhost => ?_, fun hhost => ⟨s.mem.write a b, ?_, fun x => Memory.read_write a x b hwf⟩⟩
  · rw [step_of_move hhost]
    exact if_pos ha
  · rw [step_of_move hhost]
    exact if_pos ha

/-- The lower window shows the forward table (R54). -/
theorem regValue_s2dWindow (cfg : Config) (s : State) {i : Nat} (h : i < 65536) :
    regValue cfg s (0x40000 + 4 * i) = windowWord s.s2d s.shiftAlloc i := by
  unfold regValue
  rw [if_neg (by omega), if_pos (by omega)]
  congr 1
  omega

/-- The upper window shows the inverse table (R54). -/
theorem regValue_d2sWindow (cfg : Config) (s : State) (i : Nat) :
    regValue cfg s (0x80000 + 4 * i) = windowWord s.d2s s.depthAlloc i := by
  unfold regValue
  rw [if_pos (by omega)]
  congr 1
  omega

/-- Settles O18: each window shows its table below the allocation. -/
theorem tableWindows : Obligations.TableWindows :=
  fun s _ hi => ⟨regValue_s2dWindow _ s hi, regValue_d2sWindow _ s _⟩

end Sys2Proof.Machine

namespace Sys2Proof.Machine

/-! ## Command words (R70 to R80) -/

/-! ### The two shapes of a command: PARSE* with its operands, and `OP` alone (R73, R80) -/

/-- The operation code of a PARSE* operation (R73). -/
def ParseOp.op (k : ParseOp) : BitVec 4 := (k.instr .middle false 0).op

@[simp] theorem op_instr (k : ParseOp) (frag : Frag) (loss : Bool) (len : Nat) : (k.instr frag loss len).op = k.op := by
  cases k <;> rfl

@[simp] theorem len?_instr (k : ParseOp) (frag : Frag) (loss : Bool) (len : Nat) :
    (k.instr frag loss len).len? = some len := by cases k <;> rfl

/-- A command is a PARSE* command or has no operands. -/
theorem parse_or_plain (i : Instr) :
    (∃ (k : ParseOp) (frag : Frag) (loss : Bool) (len : Nat), i = k.instr frag loss len) ∨ i.len? = none := by
  rcases instr_cases i with h | rfl | rfl | rfl | rfl | rfl
  · exact .inl h
  all_goals exact .inr rfl

theorem wellFormed_instr (k : ParseOp) (frag : Frag) (loss : Bool) (len : Nat) :
    (k.instr frag loss len).wellFormed = true ↔ len < 65536 := by simp [Instr.wellFormed]

theorem wellFormed_of_plain {i : Instr} (hi : i.len? = none) : i.wellFormed = true := by simp [Instr.wellFormed, hi]

theorem encode_instr (k : ParseOp) (frag : Frag) (loss : Bool) (len : Nat) :
    encode (k.instr frag loss len) = wordOf len loss frag k.op := by cases k <;> rfl

theorem encode_of_plain {i : Instr} (hi : i.len? = none) : encode i = wordOf 0 false .middle i.op := by
  rcases instr_cases i with ⟨k, frag, loss, len, rfl⟩ | rfl | rfl | rfl | rfl | rfl
  · simp at hi
  all_goals rfl

/-! ### The decoder by the operation code (R78) -/

theorem decode_of_parseOp {w : Word} {k : ParseOp} (h : opField w = k.op) : decode w = decodeParse k.instr w := by
  unfold decode
  rw [h]
  cases k <;> rfl

theorem decode_of_plainOp {w : Word} {i : Instr} (hi : i.len? = none) (h : opField w = i.op) :
    decode w = decodePlain i w := by
  unfold decode
  rw [h]
  rcases instr_cases i with ⟨k, frag, loss, len, rfl⟩ | rfl | rfl | rfl | rfl | rfl
  · simp at hi
  all_goals rfl

/-- An operation code is that of a PARSE* operation, that of a command without operands, or not assigned (R77). -/
theorem opField_cases (w : Word) :
    (∃ k : ParseOp, opField w = k.op) ∨ (∃ i : Instr, i.len? = none ∧ opField w = i.op) ∨
      decode w = .error .unassignedOp := by
  unfold decode
  split
  case h_1 h => exact .inr (.inl ⟨.beginp, rfl, h⟩)
  case h_2 h => exact .inl ⟨.u11, h⟩
  case h_3 h => exact .inl ⟨.u12, h⟩
  case h_4 h => exact .inl ⟨.u6, h⟩
  case h_5 h => exact .inl ⟨.u10, h⟩
  case h_6 h => exact .inl ⟨.yuv, h⟩
  case h_7 h => exact .inr (.inl ⟨.s2dbuild, rfl, h⟩)
  case h_8 h => exact .inr (.inl ⟨.s2dupdate, rfl, h⟩)
  case h_9 h => exact .inr (.inl ⟨.s2dfree, rfl, h⟩)
  case h_10 h => exact .inr (.inl ⟨.shutdown, rfl, h⟩)
  case h_11 => exact .inr (.inr rfl)

/-- What a word that decodes holds: a PARSE* command takes its operands from the fields, any other has zeros there. -/
theorem decode_ok {w : Word} {i : Instr} (h : decode w = .ok i) :
    (∃ k : ParseOp, opField w = k.op ∧ rsvField w = 0#9 ∧
      i = k.instr (.ofBits (fragField w)) (lossField w) (lenField w).toNat) ∨
    (i.len? = none ∧ opField w = i.op ∧ rsvField w = 0#9 ∧ fragField w = 0#2 ∧ lossField w = false ∧
      lenField w = 0#16) := by
  rcases opField_cases w with ⟨k, hop⟩ | ⟨j, hj, hop⟩ | herr
  · rw [decode_of_parseOp hop] at h
    exact .inl ⟨k, hop, decodeParse_ok h⟩
  · rw [decode_of_plainOp hj hop] at h
    obtain ⟨hrsv, rfl, hfields⟩ := decodePlain_ok h
    exact .inr ⟨hj, hop, hrsv, hfields⟩
  · rw [herr] at h
    cases h

theorem opField_of_decode {w : Word} {i : Instr} (h : decode w = .ok i) : opField w = i.op := by
  rcases decode_ok h with ⟨k, hop, -, rfl⟩ | ⟨-, hop, -⟩
  · rw [hop, op_instr]
  · exact hop

/-! ### Decoding and encoding agree -/

/-- The word composed of given operands decodes to the PARSE* command with them, if the length fits `LEN`. -/
theorem decode_encode_instr (k : ParseOp) (frag : Frag) (loss : Bool) {len : Nat} (h : len < 65536) :
    decode (encode (k.instr frag loss len)) = .ok (k.instr frag loss len) := by
  rw [encode_instr, decode_of_parseOp (opField_wordOf ..), decodeParse, if_pos (rsvField_wordOf ..), fragField_wordOf,
    lossField_wordOf, lenField_wordOf, Frag.ofBits_bits, BitVec.toNat_ofNat, Nat.mod_eq_of_lt h]

theorem decode_encode_of_plain {i : Instr} (hi : i.len? = none) : decode (encode i) = .ok i := by
  rw [encode_of_plain hi, decode_of_plainOp hi (opField_wordOf ..), decodePlain,
    if_neg (not_not_intro (rsvField_wordOf ..)),
    if_pos ⟨fragField_wordOf .., lossField_wordOf .., lenField_wordOf ..⟩]

/-- Settles O1: by the two shapes of a command, the fields of its word being its operands. -/
theorem decodeEncodeRoundTrip : Obligations.DecodeEncodeRoundTrip := by
  intro i hwf
  rcases parse_or_plain i with ⟨k, frag, loss, len, rfl⟩ | hi
  · exact decode_encode_instr k frag loss ((wellFormed_instr ..).mp hwf)
  · exact decode_encode_of_plain hi

/-- A word with `RSV` = 0 is composed of its other fields (R70, R80). -/
theorem wordOf_fields {w : Word} (h : rsvField w = 0#9) :
    wordOf (lenField w).toNat (lossField w) (.ofBits (fragField w)) (opField w) = w :=
  word_ext (opField_wordOf ..) ((fragField_wordOf ..).trans (Frag.bits_ofBits _)) (lossField_wordOf ..)
    ((rsvField_wordOf ..).trans h.symm) ((lenField_wordOf ..).trans (BitVec.ofNat_toNat _ _))

/-- Settles O2: a word is composed of its fields, and those are the operands of what it decodes to. -/
theorem encodeDecodeRoundTrip : Obligations.EncodeDecodeRoundTrip := by
  intro w i h
  rcases decode_ok h with ⟨k, hop, hrsv, rfl⟩ | ⟨hi, hop, hrsv, hfrag, hloss, hlen⟩
  · refine ⟨(wellFormed_instr ..).mpr (lenField w).isLt, ?_⟩
    rw [encode_instr, ← hop, wordOf_fields hrsv]
  · refine ⟨wellFormed_of_plain hi, ?_⟩
    have hword := wordOf_fields hrsv
    rw [hlen, hloss, hfrag, hop] at hword
    exact (encode_of_plain hi).trans hword

/-! ### R73's table -/

/-- A PARSE* row of the table, or a row of a command without operands. -/
theorem opRows_cases {r : OpRow} (h : r ∈ opRows) :
    (∃ k : ParseOp, r = ⟨k.op, k.op.setWidth 32, 0x0000FF8F#32⟩) ∨
    (∃ i : Instr, i.len? = none ∧ r = ⟨i.op, i.op.setWidth 32, 0xFFFFFFFF#32⟩) := by
  simp only [opRows, List.mem_cons, List.not_mem_nil, or_false] at h
  rcases h with h | h | h | h | h | h | h | h | h | h
  · exact .inr ⟨.beginp, rfl, h⟩
  · exact .inl ⟨.u11, h⟩
  · exact .inl ⟨.u12, h⟩
  · exact .inl ⟨.u6, h⟩
  · exact .inl ⟨.u10, h⟩
  · exact .inl ⟨.yuv, h⟩
  · exact .inr ⟨.s2dbuild, rfl, h⟩
  · exact .inr ⟨.s2dupdate, rfl, h⟩
  · exact .inr ⟨.s2dfree, rfl, h⟩
  · exact .inr ⟨.shutdown, rfl, h⟩

/-- Every command has its row. -/
theorem exists_opRow (i : Instr) : ∃ r ∈ opRows, r.op = i.op := by cases i <;> simp [opRows, Instr.op]

theorem parseRow_selects_iff (k : ParseOp) (w : Word) :
    w &&& 0x0000FF8F#32 = k.op.setWidth 32 ↔ ∃ i, decode w = .ok i ∧ i.op = k.op := by
  rw [mask_parse_iff]
  constructor
  · rintro ⟨hop, hrsv⟩
    exact ⟨_, (decode_of_parseOp hop).trans (if_pos hrsv), op_instr ..⟩
  · rintro ⟨i, hdec, hi⟩
    have hop := (opField_of_decode hdec).trans hi
    rw [decode_of_parseOp hop] at hdec
    exact ⟨hop, (decodeParse_ok hdec).1⟩

theorem plainRow_selects_iff {j : Instr} (hj : j.len? = none) (w : Word) :
    w &&& 0xFFFFFFFF#32 = j.op.setWidth 32 ↔ ∃ i, decode w = .ok i ∧ i.op = j.op := by
  rw [mask_plain_iff]
  constructor
  · rintro ⟨hop, hrsv, hfields⟩
    exact ⟨j, (decode_of_plainOp hj hop).trans ((if_neg (not_not_intro hrsv)).trans (if_pos hfields)), rfl⟩
  · rintro ⟨i, hdec, hi⟩
    have hop := (opField_of_decode hdec).trans hi
    rw [decode_of_plainOp hj hop] at hdec
    obtain ⟨hrsv, -, hfields⟩ := decodePlain_ok hdec
    exact ⟨hop, hrsv, hfields⟩

/-- A row selects the words of its commands (R73). -/
theorem opRow_selects_iff {r : OpRow} (hr : r ∈ opRows) (w : Word) :
    w &&& r.mask = r.pattern ↔ ∃ i, decode w = .ok i ∧ i.op = r.op := by
  rcases opRows_cases hr with ⟨k, rfl⟩ | ⟨j, hj, rfl⟩
  · exact parseRow_selects_iff k w
  · exact plainRow_selects_iff hj w

/-- A word decodes exactly when some row selects it (R73, R77). -/
theorem decodes_iff_selected (w : Word) : (∃ i, decode w = .ok i) ↔ ∃ r ∈ opRows, w &&& r.mask = r.pattern := by
  constructor
  · rintro ⟨i, hdec⟩
    obtain ⟨r, hr, hop⟩ := exists_opRow i
    exact ⟨r, hr, (opRow_selects_iff hr w).mpr ⟨i, hdec, hop.symm⟩⟩
  · rintro ⟨r, hr, hsel⟩
    obtain ⟨i, hdec, -⟩ := (opRow_selects_iff hr w).mp hsel
    exact ⟨i, hdec⟩

/-- Settles O3: each row's mask as conditions on fields, and every command has a row. -/
theorem decodeFollowsOpTable : Obligations.DecodeFollowsOpTable :=
  fun w => ⟨fun _ hr => opRow_selects_iff hr w, decodes_iff_selected w⟩

/-- Settles O8: a word that no row selects does not decode. -/
theorem illegalWordSetsBadCommand : Obligations.IllegalWordSetsBadCommand := by
  intro s w hnone
  cases hdec : decode w with
  | ok i =>
    obtain ⟨r, hr, hsel⟩ := (decodes_iff_selected w).mp ⟨i, hdec⟩
    exact absurd hsel (hnone r hr)
  | error e => exact runCommand_of_error hdec

/-! ### The value and the bits of a command's word (R70, R74, R80) -/

/-- Four fields at bits 3:0, 5:4, 6 and 31:16. -/
theorem toNat_command_fields {x0 x1 x2 x3 : Word} (h0 : x0.toNat < 2 ^ 4) (h1 : x1.toNat < 2 ^ 2) (h2 : x2.toNat < 2)
    (h3 : x3.toNat < 2 ^ 16) :
    (x0 ||| x1 <<< 4 ||| x2 <<< 6 ||| x3 <<< 16).toNat =
      x0.toNat + 2 ^ 4 * x1.toNat + 2 ^ 6 * x2.toNat + 2 ^ 16 * x3.toNat := by
  have e1 : (x0 ||| x1 <<< 4).toNat = _ := toNat_or_shiftLeft h0 (by omega)
  have e2 : (x0 ||| x1 <<< 4 ||| x2 <<< 6).toNat = _ := toNat_or_shiftLeft (by omega) (by omega)
  rw [toNat_or_shiftLeft (by omega) (by omega), e2, e1]

/-- A composed word is its four fields (R80). -/
theorem wordOf_toNat {len : Nat} (h : len < 65536) (loss : Bool) (frag : Frag) (op : BitVec 4) :
    (wordOf len loss frag op).toNat = len * 2 ^ 16 + loss.toNat * 2 ^ 6 + frag.bits.toNat * 2 ^ 4 + op.toNat := by
  have hop : (op.setWidth 32).toNat = op.toNat := BitVec.toNat_setWidth_of_le (by decide)
  have hfrag : (frag.bits.setWidth 32).toNat = frag.bits.toNat := BitVec.toNat_setWidth_of_le (by decide)
  have hloss : ((BitVec.ofBool loss).setWidth 32).toNat = loss.toNat := by cases loss <;> rfl
  have hlen : (BitVec.ofNat 32 len).toNat = len := Nat.mod_eq_of_lt (by omega)
  have hflip (a b c d : Word) : a ||| b ||| c ||| d = d ||| c ||| b ||| a := by ac_rfl
  rw [wordOf, hflip, toNat_command_fields (hop ▸ op.isLt) (hfrag ▸ frag.bits.isLt) (hloss ▸ loss.toNat_lt) (by omega),
    hop, hfrag, hloss, hlen]
  omega

/-- Settles O5: the word is its fields side by side. -/
theorem encodeIsShiftFormula : Obligations.EncodeIsShiftFormula := by
  refine ⟨fun k frag loss len h => ?_, fun i hi => ?_⟩
  · rw [encode_instr, wordOf_toNat h, op_instr]
    cases loss <;> rfl
  · rw [encode_of_plain hi, wordOf_toNat (by decide)]
    simp [Frag.bits]

/-- Bits 4 and 5 of a word are those of `FRAG` (R70). -/
theorem getLsbD_four_add (w : Word) {j : Nat} (hj : j < 2) : w.getLsbD (4 + j) = (fragField w).getLsbD j := by
  simp [fragField, hj]

theorem bits_getLsbD_begin (frag : Frag) : frag.bits.getLsbD 0 = hasBegin frag := by cases frag <;> rfl

theorem bits_getLsbD_end (frag : Frag) : frag.bits.getLsbD 1 = hasEnd frag := by cases frag <;> rfl

/-- Settles O6: the bits are those of the fields `FRAG` and `LOSS`. -/
theorem fragBitsOfWord : Obligations.FragBitsOfWord := by
  intro k frag loss len
  rw [encode_instr, ← bits_getLsbD_begin, ← bits_getLsbD_end, ← fragField_wordOf len loss frag k.op]
  exact ⟨getLsbD_four_add _ (j := 0) (by decide), getLsbD_four_add _ (j := 1) (by decide), lossField_wordOf ..⟩

end Sys2Proof.Machine

namespace Sys2Proof.Machine

/-! ### The session commands (R90, R92) -/

/-- R90: a destination range past the top of the address space. -/
theorem exec_beginp_of_wraps {s : State} (h : 2 ^ 32 < s.dstBase.toNat + s.dstCap.toNat) :
    exec .beginp s = fail .badCommand s := if_pos h

/-- R90: a destination range inside the address space is latched. -/
theorem exec_beginp_of_fits {s : State} (h : s.dstBase.toNat + s.dstCap.toNat ≤ 2 ^ 32) :
    exec .beginp s = succeed { s with boundBase := s.dstBase, boundCap := s.dstCap, wr := 0#32,
                                      status := { s.status with bound := true } } := if_neg (Nat.not_lt.mpr h)

/-- Settles O22: the destination range wraps, and BEGINP fails, or it fits, and BEGINP binds it. -/
theorem beginpBindsDestination : Obligations.BeginpBindsDestination := by
  intro s
  split
  case isTrue hwraps => exact exec_beginp_of_wraps hwraps
  case isFalse hfits => exact exec_beginp_of_fits (Nat.le_of_not_lt hfits)

/-- The codec state of reset: every accumulator 0 with no bits, every carry empty (R35 to R39). -/
theorem reset_codec : State.reset.codec = ⟨⟨0#4, 0#10⟩, [], ⟨0#4, 0#4⟩, ⟨0#4, 0#8⟩, []⟩ := rfl

/-- Settles O23: SHUTDOWN puts the codec state of reset in place, written out by `reset_codec`, and then ends with `ERR`
0, which leaves `TBL` the only field of `STATUS` kept. -/
theorem shutdownResetsSessionAndEngines : Obligations.ShutdownResetsSessionAndEngines := by
  intro s
  change execShutdown s = _
  rw [execShutdown, reset_codec, succeed, setErr]

end Sys2Proof.Machine

namespace Sys2Proof.Machine

/-! ## The common sequence of the PARSE* commands (R100) -/

/-! ### Checks 2 and 4 -/

/-- Settles O24: step 2 of R100 comes before everything else. -/
theorem sourceWrapIsBadCommand : Obligations.SourceWrapIsBadCommand := by
  intro k frag loss len s hwrap
  rw [exec_instr]
  exact if_pos hwrap

/-- Settles O25: without the BEGIN bit step 3 of R100 does nothing, and step 4 finds `CORRUPT`. -/
theorem corruptRejectsUntilBegin : Obligations.CorruptRejectsUntilBegin := by
  intro k frag loss len s hfit hbegin hcorrupt
  rw [exec_instr, parse, beginReset_of_not hbegin, config_addrW, if_neg (Nat.not_lt.mpr hfit), if_pos hcorrupt]
  rfl

/-- Checks 2 and 4 of R100 fail in one of two ways. -/
theorem not_parseRuns_cases {frag : Frag} {len : Nat} {s : State} (h : ¬ parseRuns frag len s) :
    s.srcBase.toNat + len > 2 ^ 32 ∨
    (s.srcBase.toNat + len ≤ 2 ^ 32 ∧ hasBegin frag = false ∧ s.status.corrupt = true) := by
  rcases Nat.lt_or_ge (2 ^ 32) (s.srcBase.toNat + len) with hwrap | hfit
  · exact .inl hwrap
  · simp only [parseRuns, hfit, true_and, not_or, Bool.not_eq_true, Bool.not_eq_false] at h
    exact .inr ⟨hfit, h⟩

/-- With the BEGIN bit a command whose source range does not wrap passes both checks. -/
theorem parseRuns_of_begin {frag : Frag} {len : Nat} {s : State} (hbegin : hasBegin frag = true)
    (hfit : s.srcBase.toNat + len ≤ 2 ^ 32) : parseRuns frag len s := ⟨hfit, .inl hbegin⟩

/-! ### Step 3 -/

/-- What step 3 of R100 leaves in `STATUS` of a message that is not lost. -/
theorem beginReset_status_of_parseRuns (e : Engine) {frag : Frag} {len : Nat} {s : State} (hst : statusInv s.status)
    (h : parseRuns frag len s) : (beginReset e frag s).status = { s.status with corrupt := false, cerr := .ok } := by
  obtain ⟨hcerr, -⟩ := hst
  cases hf : hasBegin frag
  · have hlive : s.status.corrupt = false := h.2.resolve_left (by simp [hf])
    rw [hlive, if_neg Bool.false_ne_true] at hcerr
    rw [beginReset_of_not hf, ← hlive, ← hcerr]
  · rw [beginReset_of_begin hf, clearCorrupt_status]

/-- Step 3 of R100 with the BEGIN bit writes over the engine's state, `CORRUPT` and `CERR`. -/
theorem beginReset_graft (k : ParseOp) {frag : Frag} (hbegin : hasBegin frag = true) (s : State) (d : Codec) (b : Bool)
    (e : ResultCode) :
    beginReset k.engine frag { s with codec := k.graft d s.codec, status := { s.status with corrupt := b, cerr := e } } =
      beginReset k.engine frag s := by
  rw [beginReset_of_begin hbegin, beginReset_of_begin hbegin]
  cases k <;> rfl

/-- Settles O31: after step 3 of R100 the two states are one. -/
theorem beginForgetsCodecState : Obligations.BeginForgetsCodecState := by
  intro k frag loss len s d b e hbegin hfit
  rw [exec_of_parseRuns (parseRuns_of_begin hbegin hfit), exec_of_parseRuns, beginReset_graft k hbegin]
  · rfl
  · exact parseRuns_of_begin hbegin hfit

/-! ### Steps 5 to 9 -/

/-- Settles O26: the capacity check of step 7 of R100 ends the command in the state after step 3. -/
theorem overflowWritesNothing : Obligations.OverflowWritesNothing := by
  intro k frag loss len s hrun hsrc hfull
  rw [exec_of_sourceAdmitted hrun hsrc, if_pos hfull, beginReset_eq]
  cases hf : hasBegin frag <;> simp only [ParseOp.start, hf] <;> rfl

/-- Settles O28: the emitted bytes are `need` many, so the write of step 8 of R100 is admitted and inside the address
space. -/
theorem parseCompletes : Obligations.ParseCompletes := by
  intro k frag loss len s hinv hrun hsrc hcap hdst
  obtain ⟨⟨-, htop, -⟩, -, hcodec, hst, -⟩ := hinv
  have hlen := k.output_length frag loss len hcodec
  have hstatus := beginReset_status_of_parseRuns k.engine hst hrun
  have hlt := s.boundCap.isLt
  refine ⟨?_, by omega⟩
  rw [exec_instr, parse_completes (r := k.output frag loss len s) hrun.1 (by rw [hstatus]) hsrc
    (by rw [beginReset_codec]; exact hcap) (by rw [beginReset_codec]; rfl) (by rw [config_addrW]; omega)
    (by rw [hlen]; exact hdst)]
  rw [beginReset_codec, setErr, hstatus, beginReset_eq, BitVec.ofNat_add, BitVec.ofNat_toNat, BitVec.setWidth_eq]
  rfl

/-- A PARSE* command that answers a next state failed, whatever `LOSS`, before it emitted a byte, or all its checks
passed. -/
theorem exec_instr_next {k : ParseOp} {frag : Frag} {loss : Bool} {len : Nat} {s t : State} (hinv : stateInv s)
    (h : exec (k.instr frag loss len) s = .next t) :
    (t.status.err ≠ .ok ∧ t.mem = s.mem ∧ t.wr = s.wr ∧ ∀ loss', exec (k.instr frag loss' len) s = .next t) ∨
    (parseRuns frag len s ∧ sourceAdmitted len s ∧ s.wr.toNat + k.need frag len s ≤ s.boundCap.toNat ∧
      destinationAdmitted (k.need frag len s) s) := by
  obtain ⟨hses, -, hcodec, ⟨hcerr, -⟩, -⟩ := hinv
  by_cases hrun : parseRuns frag len s
  case neg =>
    rcases not_parseRuns_cases hrun with hwrap | ⟨hfit, hbegin, hcorrupt⟩
    · rw [sourceWrapIsBadCommand k frag loss len s hwrap] at h
      cases h
      exact .inl ⟨nofun, rfl, rfl, fun loss' => sourceWrapIsBadCommand k frag loss' len s hwrap⟩
    · rw [corruptRejectsUntilBegin k frag loss len s hfit hbegin hcorrupt] at h
      cases h
      rw [if_pos hcorrupt] at hcerr
      refine .inl ⟨fun hok => (nomatch hcerr.symm.trans hok), rfl, rfl, fun loss' => ?_⟩
      exact corruptRejectsUntilBegin k frag loss' len s hfit hbegin hcorrupt
  by_cases hsrc : sourceAdmitted len s
  case neg => exact nomatch (exec_of_not_sourceAdmitted hrun hsrc).symm.trans h
  by_cases hfull : s.wr.toNat + k.need frag len s > s.boundCap.toNat
  case pos =>
    rw [overflowWritesNothing k frag loss len s hrun hsrc hfull] at h
    cases h
    exact .inl ⟨nofun, rfl, rfl, fun loss' => overflowWritesNothing k frag loss' len s hrun hsrc hfull⟩
  have hcap := Nat.le_of_not_lt hfull
  rw [exec_of_sourceAdmitted hrun hsrc, if_neg hfull] at h
  rcases store_output_cases (loss := loss) hses hcodec hcap with ⟨hdst, -⟩ | ⟨-, hfault⟩
  · exact .inr ⟨hrun, hsrc, hcap, hdst⟩
  · exact nomatch hfault.symm.trans h

/-- `WR` advances over the emitted bytes without wrapping. -/
theorem wr_add_need {w : Word} {n : Nat} (h : w.toNat + n < 2 ^ 32) : (w + BitVec.ofNat 32 n).toNat = w.toNat + n := by
  rw [BitVec.toNat_add, BitVec.toNat_ofNat]
  omega

/-- A PARSE* command that succeeds has stored its engine's output and advanced `WR` over it; the session, the table and
the platform are as before. -/
theorem exec_instr_ok {k : ParseOp} {frag : Frag} {loss : Bool} {len : Nat} {s t : State} (hinv : stateInv s)
    (h : exec (k.instr frag loss len) s = .next t) (hok : t.status.err = .ok) :
    t.mem = s.mem.writeBytes (s.boundBase.toNat + s.wr.toNat) (k.output frag loss len s).1 ∧
    t.codec = (k.output frag loss len s).2 ∧
    t.wr.toNat = s.wr.toNat + (k.output frag loss len s).1.length ∧
    t.boundBase = s.boundBase ∧ t.boundCap = s.boundCap ∧ lut t = lut s := by
  rcases exec_instr_next hinv h with ⟨herr, -⟩ | ⟨hrun, hsrc, hcap, hdst⟩
  · exact absurd hok herr
  · obtain ⟨hexec, hlt⟩ := parseCompletes k frag loss len s hinv hrun hsrc hcap hdst
    rw [hexec] at h
    cases h
    obtain ⟨-, -, hcodec, -⟩ := hinv
    exact ⟨rfl, rfl, (wr_add_need hlt).trans (by rw [k.output_length frag loss len hcodec]), rfl, rfl, rfl⟩

/-! ### No command fails with BadPacketFormat (R117) -/

/-- A PARSE* command fails with BadCommand, with OutputBufferOverflow or with the latched code. -/
theorem parse_neverBadPacketFormat {k : ParseOp} {frag : Frag} {loss : Bool} {len : Nat} {s t : State}
    (hcerr : s.status.cerr ≠ .badPacketFormat) (h : exec (k.instr frag loss len) s = .next t) :
    t.status.err ≠ .badPacketFormat ∧ t.status.cerr ≠ .badPacketFormat := by
  have hreset : (beginReset k.engine frag s).status.cerr ≠ .badPacketFormat := by
    cases hf : hasBegin frag
    · rwa [beginReset_of_not hf]
    · rw [beginReset_of_begin hf]
      nofun
  rw [exec_instr] at h
  rcases parse_next h with ⟨-, rfl⟩ | ⟨-, -, -, rfl⟩ | ⟨-, -, -, rfl⟩ | ⟨-, -, -, r, -, -, rfl⟩
  · exact ⟨nofun, hcerr⟩
  · exact ⟨hcerr, hcerr⟩
  · exact ⟨nofun, nofun⟩
  · exact ⟨nofun, hreset⟩

/-- Settles O56: each command by what it can do. -/
theorem neverBadPacketFormat : Obligations.NeverBadPacketFormat := by
  intro i s t hcerr h
  rcases instr_cases i with ⟨k, frag, loss, len, rfl⟩ | rfl | rfl | rfl | rfl | rfl
  · exact parse_neverBadPacketFormat hcerr h
  · rcases beginp_next h with ⟨-, rfl⟩ | ⟨-, rfl⟩ <;> exact ⟨nofun, hcerr⟩
  · rcases s2dbuild_next h with rfl | rfl | rfl <;> exact ⟨nofun, hcerr⟩
  · rcases s2dupdate_next h with rfl | ⟨-, -, -, rfl⟩ <;> exact ⟨nofun, hcerr⟩
  · cases h
    exact ⟨nofun, hcerr⟩
  · cases h
    exact ⟨nofun, nofun⟩

/-! ### `LOSS` (R75, R108) -/

/-- With `LOSS` every emitted sample is stored as 0. -/
theorem emitSamples_loss (out : Nat → Half) (vs : List Nat) :
    ∀ b ∈ emitSamples Config.lub true out vs, b = 0#8 := by
  simp [emitSamples, emit16]

/-- With `LOSS` every emitted byte is 0. -/
theorem run_loss_zero (k : ParseOp) (look : Nat → Half) (c : Codec) (last : Bool) (payload : List Byte) :
    ∀ b ∈ (k.engine.run look c last true payload).1, b = 0#8 := by
  cases k with
  | u11 => exact emitSamples_loss _ _
  | u12 => exact emitSamples_loss _ _
  | u6 => exact emitSamples_loss _ _
  | u10 => exact emitSamples_loss _ _
  | yuv =>
    intro b hb
    obtain ⟨x, -, rfl⟩ := List.mem_map.1 hb
    rfl

/-- The codec state after a packet does not depend on `LOSS`. -/
theorem run_loss_codec (k : ParseOp) (look : Nat → Half) (c : Codec) (last loss loss' : Bool) (payload : List Byte) :
    (k.engine.run look c last loss payload).2 = (k.engine.run look c last loss' payload).2 := by cases k <;> rfl

/-- Reading where zeros were stored. -/
theorem Memory.read_writeBytes_zero {m : Memory} (a x : Nat) {bs : List Byte} (h : m.wf) (hz : ∀ b ∈ bs, b = 0#8) :
    (m.writeBytes a bs).read x = if a ≤ x ∧ x < a + bs.length then 0#8 else m.read x := by
  rw [Memory.read_writeBytes a x bs h]
  split
  · rw [List.getD_eq_getElem _ _ (by omega)]
    exact hz _ (List.getElem_mem _)
  · rfl

/-- Settles O32: a command that fails does so with `LOSS` or without, before anything is emitted; one that completes
leaves the same state but for the bytes stored, which are 0. -/
theorem lossZeroesOutput : Obligations.LossZeroesOutput := by
  intro k frag len s t hinv h
  rcases exec_instr_next hinv h with ⟨-, hmem, hwr, hsame⟩ | ⟨hrun, hsrc, hcap, hdst⟩
  · refine ⟨t, hsame true, rfl, fun a => ?_⟩
    rw [hwr, hmem, if_neg (by omega)]
  · obtain ⟨hfalse, hlt⟩ := parseCompletes k frag false len s hinv hrun hsrc hcap hdst
    obtain ⟨htrue, -⟩ := parseCompletes k frag true len s hinv hrun hsrc hcap hdst
    obtain ⟨-, -, hcodec, -, hwf, -⟩ := hinv
    rw [hfalse] at h
    cases h
    refine ⟨_, htrue, ?_, fun a => ?_⟩
    · simp only [ParseOp.output, run_loss_codec k _ _ _ true false]
    · rw [wr_add_need hlt, ← Nat.add_assoc, ← k.output_length frag true len hcodec]
      exact Memory.read_writeBytes_zero _ _ hwf (run_loss_zero k _ _ _ _)

end Sys2Proof.Machine

namespace Sys2Proof.Machine

/-! ## `need` (R101, R110, R130) -/

/-- Whole samples, and one more for the bits after them, are the samples rounded up. -/
theorem div_add_flush {bpp : Nat} (hp : 0 < bpp) (n : Nat) :
    n / bpp + (if n % bpp ≠ 0 then 1 else 0) = (n + bpp - 1) / bpp := by
  have hn := Nat.div_add_mod n bpp
  have hr := Nat.mod_lt n hp
  split
  · have hsum : n + bpp - 1 = bpp * (n / bpp + 1) + (n % bpp - 1) := by rw [Nat.mul_add]; omega
    rw [hsum, Nat.mul_add_div hp, Nat.div_eq_of_lt (show n % bpp - 1 < bpp by omega)]
  · have hsum : n + bpp - 1 = bpp * (n / bpp) + (bpp - 1) := by omega
    rw [hsum, Nat.mul_add_div hp, Nat.div_eq_of_lt (show bpp - 1 < bpp by omega)]

/-- At the end of a message an accumulator engine with `TAIL_FLUSH` emits a sample for every bit (R101, R107). -/
theorem accNeed_last {cfg : Config} {bpp : Nat} (hp : 0 < bpp) (nb len : Nat) :
    accNeed cfg bpp nb true len =
      sampleSize cfg * (if cfg.tailFlush then (nb + 8 * len + bpp - 1) / bpp else (nb + 8 * len) / bpp) := by
  rw [← div_add_flush hp]
  cases hf : cfg.tailFlush <;> simp [accNeed, hf]

/-- Within a message an accumulator engine emits whole samples only (R101). -/
theorem accNeed_notLast (cfg : Config) (bpp nb len : Nat) :
    accNeed cfg bpp nb false len = sampleSize cfg * ((nb + 8 * len) / bpp) := by simp [accNeed]

/-- At the end of a message U12 with `TAIL_FLUSH` emits a sample for every bit (R110). -/
theorem need12_last (cfg : Config) (n : Nat) :
    need12 cfg n true = sampleSize cfg * (if cfg.tailFlush then (8 * n + 11) / 12 else 16 * (n / 24)) := by
  cases hf : cfg.tailFlush
  · simp [need12, hf]
  · have hceil : 16 * (n / 24) + (2 * (n % 24) + 2) / 3 = (8 * n + 11) / 12 := by omega
    simp [need12, hf, hceil]

/-- Within a message U12 emits whole groups only (R110). -/
theorem need12_notLast (cfg : Config) (n : Nat) : need12 cfg n false = sampleSize cfg * (16 * (n / 24)) := by
  simp [need12]

/-- Settles O29: what an engine emits has `need` bytes, and each `need` is its formula at LUB version 1. -/
theorem needIsExact : Obligations.NeedIsExact := by
  intro k c last loss look payload hc
  refine ⟨run_length k hc look last loss payload, ?_⟩
  cases k
  case yuv => rfl
  case u12 =>
    show need12 Config.lub _ last = _
    rw [need12, lub_tailFlush, Bool.and_true, sampleSize_lub]
  all_goals
    show accNeed Config.lub _ _ last _ = _
    cases last <;> simp [accNeed]

/-- An accumulator engine needs most at the end of a message (R101). -/
theorem accNeed_le {bpp : Nat} (hp : 0 < bpp) (nb : Nat) (last : Bool) (len : Nat) :
    accNeed Config.lub bpp nb last len ≤ 2 * ((nb + 8 * len + bpp - 1) / bpp) := by
  cases last
  · rw [accNeed_notLast, ← div_add_flush hp]
    exact Nat.mul_le_mul_left 2 (Nat.le_add_right ..)
  · exact (accNeed_last hp nb len).le

/-- U12 needs most at the end of a message (R110). -/
theorem need12_le (n : Nat) (last : Bool) : need12 Config.lub n last ≤ 2 * ((8 * n + 11) / 12) := by
  cases last
  · rw [need12_notLast, sampleSize_lub]
    omega
  · exact (need12_last Config.lub n).le

/-- With a length that has a word no engine needs more than its largest `need`. -/
theorem need_le_largestNeed (k : ParseOp) {c : Codec} (hc : codecInv c) (last : Bool) {len : Nat} (hlen : len < 65536) :
    k.engine.need c last len ≤ largestNeed k := by
  obtain ⟨⟨h11, -⟩, ⟨h6, heven6, -⟩, ⟨h10, heven10, -⟩, h12, hy⟩ := hc
  have e6 := heven6 rfl
  have e10 := heven10 rfl
  cases k with
  | u11 => exact (accNeed_le (by decide) _ last len).trans (by simp only [largestNeed]; omega)
  | u12 => exact (need12_le _ last).trans (by simp only [largestNeed]; omega)
  | u6 => exact (accNeed_le (by decide) _ last len).trans (by simp only [largestNeed]; omega)
  | u10 => exact (accNeed_le (by decide) _ last len).trans (by simp only [largestNeed]; omega)
  | yuv =>
    show 6 * ((c.cy.length + len) / 4) ≤ 98304
    omega

/-- The state after reset but for the fullest codec state that R35 to R39 allow. -/
def fullestState : State :=
  { State.reset with
    codec := ⟨⟨10#4, 0#10⟩, List.replicate 23 0#8, ⟨4#4, 0#4⟩, ⟨8#4, 0#8⟩, List.replicate 3 0#8⟩ }

theorem fullestState_inv : stateInv fullestState := by
  obtain ⟨hses, htab, -, hst, hmem⟩ := stateInv_resetOn Config.admitAll
  exact ⟨hses, htab, by decide, hst, hmem⟩

/-- Settles O30: the bound of each engine, and the last packet of 65535 bytes from the fullest codec state, which needs as
much. -/
theorem ParseOp.largestNeed : Obligations.LargestNeed := by
  refine ⟨fun k frag len s hc hlen => need_le_largestNeed k (codecInv_start k frag hc) _ hlen, fun k => ?_⟩
  refine ⟨.ends, 65535, fullestState, fullestState_inv, by decide, ?_⟩
  cases k <;> rfl

/-! ## The accumulator engines (R102 to R107) -/

/-! ### One byte (R103, R105, R106) -/

theorem drain_of_lt {bpp nb : Nat} (h : nb < bpp) (k acc : Nat) : drain bpp k nb acc = ([], nb, acc) := by
  cases k
  · rfl
  · exact if_neg (Nat.not_le_of_lt h)

theorem drain_of_le {bpp nb : Nat} (h : bpp ≤ nb) (k acc : Nat) :
    drain bpp (k + 1) nb acc =
      (acc / 2 ^ (nb - bpp) % 2 ^ bpp :: (drain bpp k (nb - bpp) (acc % 2 ^ (nb - bpp))).1,
        (drain bpp k (nb - bpp) (acc % 2 ^ (nb - bpp))).2) := if_pos h

/-- A byte that does not fill a sample is kept. -/
theorem accByte_none {bpp nb : Nat} (h : nb + 8 < bpp) (acc : Nat) (b : Byte) :
    accByte bpp nb acc b = ([], nb + 8, acc * 256 + b.toNat) := drain_of_lt h _ _

/-- A byte that fills one sample leaves its lowest `r` bits. -/
theorem accByte_one {bpp nb r : Nat} (hsum : nb + 8 = bpp + r) (hr8 : r ≤ 8) (hr : r < bpp) {acc : Nat}
    (ha : acc < 2 ^ nb) (b : Byte) :
    accByte bpp nb acc b = ([acc * 2 ^ (8 - r) + b.toNat / 2 ^ r], r, b.toNat % 2 ^ r) := by
  have h256 : acc * 256 + b.toNat = 2 ^ r * (acc * 2 ^ (8 - r)) + b.toNat := by
    rw [Nat.mul_left_comm, ← Nat.pow_add, Nat.add_sub_cancel' hr8]
  have hfits : (acc * 256 + b.toNat) / 2 ^ r < 2 ^ bpp := by
    rw [Nat.div_lt_iff_lt_mul (Nat.two_pow_pos r), ← Nat.pow_add, ← hsum, Nat.pow_add]
    have := b.isLt
    omega
  have hrest : nb + 8 - bpp = r := by omega
  rw [accByte, drain_of_le (by omega), hrest, drain_of_lt hr, Nat.mod_eq_of_lt hfits, h256,
    Nat.mul_add_div (Nat.two_pow_pos r), Nat.mul_add_mod]

/-- The last byte of U6's three fills two samples (R105). -/
theorem accByte_two {a : Nat} (ha : a < 2 ^ 4) (b : Byte) :
    accByte 6 4 a b = ([a * 4 + b.toNat / 64, b.toNat % 64], 0, 0) := by
  have := b.isLt
  rw [accByte, drain_of_le (by decide), drain_of_le (by decide), drain_of_lt (by decide)]
  simp only [Nat.reduceAdd, Nat.reduceSub, Nat.reducePow, Prod.mk.injEq, List.cons.injEq, and_true, true_and]
  omega

/-! ### The phase after any number of bytes -/

/-- Where `n` bytes are `m` samples, the residual bits depend on the number of bytes modulo `n` only. -/
theorem accBytes_phase {bpp n m : Nat} (hp : 0 < bpp) (h : 8 * n = bpp * m) (bs : List Byte) :
    (accBytes bpp 0 0 bs).2.1 = 8 * (bs.length % n) % bpp := by
  obtain ⟨-, hnb, -⟩ := accBytes_count hp Nat.one_pos bs
  rw [hnb, Nat.zero_add]
  conv_lhs => rw [← Nat.mod_add_div bs.length n, Nat.mul_add, ← Nat.mul_assoc, h, Nat.mul_assoc]
  exact Nat.add_mul_mod_self_left ..

/-- Where `n` bytes are `m` samples, they give these and leave nothing. -/
theorem accBytes_period {bpp n m : Nat} (hp : 0 < bpp) (h : 8 * n = bpp * m) (bs : List Byte) (hlen : bs.length = n) :
    (accBytes bpp 0 0 bs).1.length = m ∧ (accBytes bpp 0 0 bs).2 = (0, 0) := by
  obtain ⟨hcount, hnb, hacc⟩ := accBytes_count hp Nat.one_pos bs
  rw [Nat.zero_add, hlen, h] at hcount hnb hacc
  rw [Nat.mul_mod_right] at hnb hacc
  exact ⟨hcount.trans (Nat.mul_div_cancel_left m hp), Prod.ext hnb (Nat.lt_one_iff.1 hacc)⟩

/-- Settles O36: each phase takes one sample or none, and 8 * 11 = 11 * 8. -/
theorem elevenStatesOfU11 : Obligations.ElevenStatesOfU11 := by
  refine ⟨fun a b => ⟨?_, ?_, ?_, ?_, ?_, ?_, ?_, ?_, ?_, ?_, ?_⟩, accBytes_phase (m := 8) (by decide) rfl,
    accBytes_period (n := 11) (m := 8) (by decide) rfl⟩
  · simpa using accByte_none (by decide : 0 + 8 < 11) 0 b
  · exact fun ha => accByte_one (r := 5) rfl (by decide) (by decide) ha b
  · exact fun ha => accByte_one (r := 2) rfl (by decide) (by decide) ha b
  · exact fun _ => accByte_none (by decide) a b
  · exact fun ha => accByte_one (r := 7) rfl (by decide) (by decide) ha b
  · exact fun ha => accByte_one (r := 4) rfl (by decide) (by decide) ha b
  · exact fun ha => accByte_one (r := 1) rfl (by decide) (by decide) ha b
  · exact fun _ => accByte_none (by decide) a b
  · exact fun ha => accByte_one (r := 6) rfl (by decide) (by decide) ha b
  · exact fun ha => accByte_one (r := 3) rfl (by decide) (by decide) ha b
  · exact fun ha => by simpa [Nat.mod_one] using accByte_one (r := 0) rfl (by decide) (by decide) ha b

/-- Settles O37: the phases take one, one and two samples, and 8 * 3 = 6 * 4. -/
theorem threeStatesOfU6 : Obligations.ThreeStatesOfU6 := by
  refine ⟨fun a b => ⟨?_, ?_, fun ha => accByte_two ha b⟩, accBytes_phase (m := 4) (by decide) rfl,
    accBytes_period (n := 3) (m := 4) (by decide) rfl⟩
  · simpa using accByte_one (r := 2) rfl (by decide) (by decide) (by decide : 0 < 2 ^ 0) b
  · exact fun ha => accByte_one (r := 4) rfl (by decide) (by decide) ha b

/-- Settles O38: the first phase takes no sample and every other one, and 8 * 5 = 10 * 4. -/
theorem fiveStatesOfU10 : Obligations.FiveStatesOfU10 := by
  refine ⟨fun a b => ⟨?_, ?_, ?_, ?_, ?_⟩, accBytes_phase (m := 4) (by decide) rfl,
    accBytes_period (n := 5) (m := 4) (by decide) rfl⟩
  · simpa using accByte_none (by decide : 0 + 8 < 10) 0 b
  · exact fun ha => accByte_one (r := 6) rfl (by decide) (by decide) ha b
  · exact fun ha => accByte_one (r := 4) rfl (by decide) (by decide) ha b
  · exact fun ha => accByte_one (r := 2) rfl (by decide) (by decide) ha b
  · exact fun ha => by simpa [Nat.mod_one] using accByte_one (r := 0) rfl (by decide) (by decide) ha b

/-! ### The stream reading (R102, R107) -/

/-- Samples that lie in the first bytes do not depend on the bytes after. -/
theorem streamSamples_append_left {bpp m : Nat} {P : List Byte} (h : bpp * m ≤ 8 * P.length) (Q : List Byte) :
    streamSamples bpp m (P ++ Q) = streamSamples bpp m P := by
  refine List.map_congr_left fun k hk => streamValue_append P Q _ _ ?_
  have := Nat.mul_le_mul_left bpp (List.mem_range.1 hk)
  rw [Nat.mul_succ] at this
  omega

/-- The samples after the first `m`. -/
theorem streamSamples_add (bpp m n : Nat) (bs : List Byte) :
    streamSamples bpp (m + n) bs =
      streamSamples bpp m bs ++ (List.range n).map fun i => streamValue bs (bpp * m + bpp * i) bpp := by
  rw [streamSamples, List.range_add, List.map_append, List.map_map]
  simp only [streamSamples, Function.comp_def, streamSample, Nat.mul_add]

/-- The byte loop of R102 takes the whole samples of the stream and keeps the bits after them: by induction on the bytes
in order of arrival. -/
theorem accBytes_stream {bpp : Nat} (hp : 0 < bpp) (bs : List Byte) :
    accBytes bpp 0 0 bs =
      (streamSamples bpp (8 * bs.length / bpp) bs, 8 * bs.length % bpp,
        streamValue bs (bpp * (8 * bs.length / bpp)) (8 * bs.length % bpp)) := by
  induction bs using List.reverseRecOn with
  | nil => simp [accBytes, streamSamples, streamValue]
  | append_singleton bs b ih =>
    have hbits := Nat.div_add_mod (8 * bs.length) bpp
    generalize hq : 8 * bs.length / bpp = q at ih hbits
    generalize hr : 8 * bs.length % bpp = r at ih hbits
    have hacc : streamValue bs (bpp * q) r * 256 + b.toNat = streamValue (bs ++ [b]) (bpp * q) (r + 8) := by
      rw [streamValue_add, streamValue_append _ _ _ _ hbits.le, hbits, streamValue_byte]
      rfl
    have hall : 8 * (bs ++ [b]).length = bpp * q + (r + 8) := by
      rw [List.length_append, List.length_singleton]
      omega
    rw [accBytes_append, ih, hall, Nat.mul_add_div hp, Nat.mul_add_mod]
    simp only [accBytes, accByte, hacc, List.append_nil]
    rw [drain_stream _ _ hp _ _ _ (Nat.le_refl _), streamSamples_add, streamSamples_append_left (by omega), Nat.mul_add]

/-- Filled up with zeros, the bits after the whole samples are the sample that the stream reading has there (R107, A14). -/
theorem streamValue_fill {bpp : Nat} (hp : 0 < bpp) (bs : List Byte) :
    streamValue bs (bpp * (8 * bs.length / bpp)) (8 * bs.length % bpp) * 2 ^ (bpp - 8 * bs.length % bpp) =
      streamSample bpp bs (8 * bs.length / bpp) := by
  have hlt := Nat.mod_lt (8 * bs.length) hp
  have hsplit := streamValue_add bs (bpp * (8 * bs.length / bpp)) (8 * bs.length % bpp) (bpp - 8 * bs.length % bpp)
  rw [Nat.add_sub_cancel' hlt.le, Nat.div_add_mod, streamValue_past _ _ _ (Nat.le_refl _), Nat.add_zero] at hsplit
  exact hsplit.symm

/-- Settles O35: the byte loop is the stream reading, and the end of a message adds the sample filled with zeros where
bits remain. -/
theorem accumulatorReadsStream : Obligations.AccumulatorReadsStream := by
  intro bpp bs hp
  rw [accPacket_msbFirst lub_bitOrder, accPacket_msbFirst lub_bitOrder, accBytes_stream hp, ← div_add_flush hp]
  refine ⟨rfl, Prod.ext ?_ rfl⟩
  simp only [if_true, accTail, lub_tailFlush, and_true, streamValue_fill hp]
  split
  · rw [streamSamples, streamSamples, List.range_succ, List.map_append]
    rfl
  · exact List.append_nil _

end Sys2Proof.Machine

namespace Sys2Proof.Machine

/-! ## The 12-bit groups (R110, R111) -/

/-! ### The stream of bytes joined -/

theorem streamBit_drop (P Q : List Byte) (j : Nat) : streamBit (P ++ Q) (8 * P.length + j) = streamBit Q j := by
  have hbyte : (8 * P.length + j) / 8 - P.length = j / 8 := by omega
  unfold streamBit
  rw [List.getD_append_right _ _ _ _ (by omega), hbyte, Nat.mul_add_mod]

/-- A value that lies after the first bytes does not depend on them. -/
theorem streamValue_drop (P Q : List Byte) (j n : Nat) :
    streamValue (P ++ Q) (8 * P.length + j) n = streamValue Q j n := by
  induction n with
  | zero => rfl
  | succ n ih => simp only [streamValue, ih, Nat.add_assoc, streamBit_drop]

/-- Where the first bytes are `m` whole samples, the stream's samples are theirs and then those of the bytes after. -/
theorem streamSamples_append {bpp m : Nat} {P : List Byte} (h : bpp * m = 8 * P.length) (n : Nat) (Q : List Byte) :
    streamSamples bpp (m + n) (P ++ Q) = streamSamples bpp m P ++ streamSamples bpp n Q := by
  rw [streamSamples_add, streamSamples_append_left h.le, h]
  simp only [streamValue_drop]
  rfl

/-- The same for a list of bytes cut after its first `l`. -/
theorem streamSamples_cut {bpp m l : Nat} {bs : List Byte} (h : bpp * m = 8 * l) (hl : l ≤ bs.length) (n : Nat) :
    streamSamples bpp (m + n) bs = streamSamples bpp m (bs.take l) ++ streamSamples bpp n (bs.drop l) := by
  rw [← streamSamples_append (by rw [h, List.length_take, Nat.min_eq_left hl]), List.take_append_drop]

/-- Samples that lie in the first `l` bytes do not depend on the bytes after. -/
theorem streamSamples_take {bpp m l : Nat} {bs : List Byte} (h : bpp * m = 8 * l) (hl : l ≤ bs.length) :
    streamSamples bpp m (bs.take l) = streamSamples bpp m bs := by
  simpa [streamSamples] using (streamSamples_cut h hl 0).symm

/-! ### Triples -/

/-- The three states of an accumulator of 12 bits. -/
theorem accByte_states12 (a : Nat) (b : Byte) :
    accByte 12 0 0 b = ([], 8, b.toNat) ∧
    (a < 2 ^ 8 → accByte 12 8 a b = ([a * 16 + b.toNat / 16], 4, b.toNat % 16)) ∧
    (a < 2 ^ 4 → accByte 12 4 a b = ([a * 256 + b.toNat], 0, 0)) := by
  refine ⟨?_, ?_, ?_⟩
  · simpa using accByte_none (by decide : 0 + 8 < 12) 0 b
  · exact fun ha => accByte_one (r := 4) rfl (by decide) (by decide) ha b
  · exact fun ha => by simpa [Nat.mod_one] using accByte_one (r := 0) rfl (by decide) (by decide) ha b

section Triple

variable (b0 b1 b2 : Byte)

theorem accBytes_one12 : accBytes 12 0 0 [b0] = ([], 8, b0.toNat) := by
  simp [accBytes, (accByte_states12 0 b0).1]

theorem accBytes_two12 : accBytes 12 0 0 [b0, b1] = ([b0.toNat * 16 + b1.toNat / 16], 4, b1.toNat % 16) := by
  rw [show [b0, b1] = [b0] ++ [b1] from rfl, accBytes_append, accBytes_one12]
  simp [accBytes, (accByte_states12 b0.toNat b1).2.1 b0.isLt]

/-- Three bytes are two samples. -/
theorem accBytes_three12 : accBytes 12 0 0 [b0, b1, b2] = (tripleSamples b0 b1 b2, 0, 0) := by
  rw [show [b0, b1, b2] = [b0, b1] ++ [b2] from rfl, accBytes_append, accBytes_two12]
  simp [accBytes, (accByte_states12 (b1.toNat % 16) b2).2.2 (Nat.mod_lt _ (by decide)), tripleSamples]

theorem streamSamples_triple : streamSamples 12 2 [b0, b1, b2] = tripleSamples b0 b1 b2 := by
  have h := accBytes_stream (bpp := 12) (by decide) [b0, b1, b2]
  rw [accBytes_three12] at h
  simpa using (congrArg Prod.fst h).symm

/-- What is left of a triple is two samples or one, the last filled with zeros (A14). -/
theorem streamSamples_pair : streamSamples 12 2 [b0, b1] = tailSamples [b0, b1] := by
  have h := (accumulatorReadsStream 12 [b0, b1] (by decide)).2
  rw [accPacket_msbFirst lub_bitOrder, accBytes_two12] at h
  simpa [accTail, tailSamples] using (congrArg Prod.fst h).symm

theorem streamSamples_single : streamSamples 12 1 [b0] = tailSamples [b0] := by
  have h := (accumulatorReadsStream 12 [b0] (by decide)).2
  rw [accPacket_msbFirst lub_bitOrder, accBytes_one12] at h
  simpa [accTail, tailSamples] using (congrArg Prod.fst h).symm

end Triple

/-- A triple ahead is two samples ahead. -/
theorem streamSamples_triple_append (b0 b1 b2 : Byte) (n : Nat) (bs : List Byte) :
    streamSamples 12 (2 + n) (b0 :: b1 :: b2 :: bs) = tripleSamples b0 b1 b2 ++ streamSamples 12 n bs := by
  rw [← streamSamples_triple]
  exact streamSamples_append (bpp := 12) (m := 2) (P := [b0, b1, b2]) rfl n bs

/-- The tail of R111 is the stream reading, the last sample filled with zeros (A14). -/
theorem tailSamples_stream (bs : List Byte) : tailSamples bs = streamSamples 12 ((8 * bs.length + 11) / 12) bs := by
  induction bs using tailSamples.induct with
  | case1 b0 b1 b2 bs ih =>
    have hcount : (8 * (b0 :: b1 :: b2 :: bs).length + 11) / 12 = 2 + (8 * bs.length + 11) / 12 := by
      simp only [List.length_cons]
      omega
    rw [hcount, streamSamples_triple_append, tailSamples, ih]
  | case2 b0 b1 => simpa using (streamSamples_pair b0 b1).symm
  | case3 b0 => simpa using (streamSamples_single b0).symm
  | case4 => rfl

/-- The triples of R111 are the stream reading. -/
theorem groupSamples_stream (bs : List Byte) : groupSamples bs = streamSamples 12 (2 * (bs.length / 3)) bs := by
  induction bs using groupSamples.induct with
  | case1 b0 b1 b2 bs ih =>
    have hcount : 2 * ((b0 :: b1 :: b2 :: bs).length / 3) = 2 + 2 * (bs.length / 3) := by
      simp only [List.length_cons]
      omega
    rw [hcount, streamSamples_triple_append, groupSamples, ih]
  | case2 bs h =>
    match bs, h with
    | [], _ => simp [groupSamples, streamSamples]
    | [_], _ => simp [groupSamples, streamSamples]
    | [_, _], _ => simp [groupSamples, streamSamples]
    | b0 :: b1 :: b2 :: bs, h => exact absurd rfl (h b0 b1 b2 bs)

/-- The groups of R110 are the stream reading. -/
theorem groupsSamples_stream {g : Nat} {bs : List Byte} (h : 24 * g ≤ bs.length) :
    groupsSamples g bs = streamSamples 12 (16 * g) bs := by
  induction g generalizing bs with
  | zero => rfl
  | succ g ih =>
    have hfirst : 24 ≤ bs.length := by omega
    have hhead : (bs.take 24).length = 24 := by rw [List.length_take, Nat.min_eq_left hfirst]
    have hrest : 24 * g ≤ (bs.drop 24).length := by
      rw [List.length_drop]
      omega
    rw [groupsSamples, groupSamples_stream, ih hrest, hhead, Nat.mul_succ 16, Nat.add_comm (16 * g)]
    exact (streamSamples_cut (bpp := 12) (m := 16) rfl hfirst _).symm

/-- Settles O39: the groups, and behind them the tail, are the stream reading. -/
theorem groupsReadStream : Obligations.GroupsReadStream := by
  intro bs
  have hfit : 24 * (bs.length / 24) ≤ bs.length := Nat.mul_div_le _ _
  have hwhole : 12 * (16 * (bs.length / 24)) = 8 * (24 * (bs.length / 24)) := by omega
  have hcount : (8 * bs.length + 11) / 12 =
      16 * (bs.length / 24) + (8 * (bs.drop (24 * (bs.length / 24))).length + 11) / 12 := by
    rw [List.length_drop]
    omega
  rw [packet12_msbFirst lub_bitOrder, packet12_msbFirst lub_bitOrder, hcount, streamSamples_cut hwhole hfit,
    streamSamples_take hwhole hfit, ← groupsSamples_stream hfit, ← tailSamples_stream]
  exact ⟨rfl, rfl⟩

/-! ## What a SINGLE packet of an unpacker leaves in memory (R102, R104, R109 to R113) -/

/-- A SINGLE packet of an unpacker emits the stored values of the stream's samples. -/
theorem single_output {k : ParseOp} {bpp : Nat}
    (h : (k, bpp) ∈ [(ParseOp.u11, 11), (ParseOp.u12, 12), (ParseOp.u6, 6), (ParseOp.u10, 10)]) (len : Nat) (s : State) :
    (k.output .single false len s).1 =
      emitSamples Config.lub false (storedSample k s)
        (streamSamples bpp ((8 * len + bpp - 1) / bpp) (s.mem.readBytes s.srcBase.toNat len)) := by
  have hlen := Memory.readBytes_length s.mem s.srcBase.toNat len
  have hacc (bpp : Nat) (hp : 0 < bpp) := (accumulatorReadsStream bpp (s.mem.readBytes s.srcBase.toNat len) hp).2
  have h12 := (groupsReadStream (s.mem.readBytes s.srcBase.toNat len)).2
  rw [hlen] at hacc h12
  simp only [List.mem_cons, Prod.mk.injEq, List.not_mem_nil, or_false] at h
  rcases h with ⟨rfl, rfl⟩ | ⟨rfl, rfl⟩ | ⟨rfl, rfl⟩ | ⟨rfl, rfl⟩
  · exact congrArg (fun r => emitSamples Config.lub false (lut s) r.1) (hacc 11 (by decide))
  · exact congrArg (fun r => emitSamples Config.lub false (lut s) r.1) h12
  · exact congrArg (fun r => emitSamples Config.lub false plainSample r.1) (hacc 6 (by decide))
  · exact congrArg (fun r => emitSamples Config.lub false plainSample r.1) (hacc 10 (by decide))

/-- The two bytes of the `j`-th stored sample, the lower one first (R55). -/
theorem emitSamples_getD (out : Nat → Half) (vs : List Nat) {j : Nat} (h : j < vs.length) :
    (emitSamples Config.lub false out vs).getD (2 * j) 0#8 = (out (vs.getD j 0)).extractLsb' 0 8 ∧
    (emitSamples Config.lub false out vs).getD (2 * j + 1) 0#8 = (out (vs.getD j 0)).extractLsb' 8 8 := by
  induction vs generalizing j with
  | nil => exact absurd h (Nat.not_lt_zero j)
  | cons v vs ih =>
    cases j with
    | zero => exact ⟨rfl, rfl⟩
    | succ j => exact ih (Nat.lt_of_succ_lt_succ h)

/-- Byte `i` of those stored. -/
theorem Memory.read_writeBytes_add {m : Memory} (a : Nat) {i : Nat} {bs : List Byte} (h : m.wf) (hi : i < bs.length) :
    (m.writeBytes a bs).read (a + i) = bs.getD i 0#8 := by
  rw [Memory.read_writeBytes a _ bs h, if_pos (by omega), Nat.add_sub_cancel_left]

theorem streamSamples_getD {bpp n j : Nat} (h : j < n) (bs : List Byte) :
    (streamSamples bpp n bs).getD j 0 = streamSample bpp bs j := by
  simp [streamSamples, h]

/-- Settles O40: the command completes with the bytes of `single_output`, and a read of two of them gives the sample. -/
theorem unpackersStoreTheStream : Obligations.UnpackersStoreTheStream := by
  intro k bpp len s hinv hk hfit hsrc hcap hdst
  have ⟨_, _, hcodec, _, hwf, _⟩ := hinv
  have hout := single_output hk len s
  have hlen := k.output_length .single false len hcodec
  have hneed : k.need .single len s = 2 * ((8 * len + bpp - 1) / bpp) := by
    rw [← hlen, hout, emitSamples_length, streamSamples_length, sampleSize_lub]
  rw [← hneed] at hcap hdst
  obtain ⟨hexec, hlt⟩ := parseCompletes k .single false len s hinv (parseRuns_of_begin rfl hfit) hsrc hcap hdst
  refine ⟨_, hexec, (wr_add_need hlt).trans (by rw [hneed]), fun j hj => ?_⟩
  obtain ⟨hlow, hhigh⟩ := emitSamples_getD (storedSample k s)
    (streamSamples bpp ((8 * len + bpp - 1) / bpp) (s.mem.readBytes s.srcBase.toNat len))
    (by rwa [streamSamples_length])
  rw [← hout, streamSamples_getD hj] at hlow hhigh
  exact ⟨(Memory.read_writeBytes_add _ hwf (by omega)).trans hlow,
    (Memory.read_writeBytes_add _ hwf (by omega)).trans hhigh⟩

end Sys2Proof.Machine

namespace Sys2Proof.Machine

/-! ## Messages divided into packets (R114, R115, R134) -/

/-! ### One packet cut in two -/

/-- From the codec states in `inv`, which step 3 of R100 and every packet within a message lead to, the engine makes of a
packet what it makes of its two parts one after the other. -/
structure Engine.Splits (e : Engine) (inv : Codec → Prop) : Prop where
  restart : ∀ c, inv (e.restart c)
  run : ∀ look c loss p, inv c → inv (e.run look c false loss p).2
  append : ∀ look c last loss p q, inv c →
    e.run look c last loss (p ++ q) =
      ((e.run look c false loss p).1 ++ (e.run look (e.run look c false loss p).2 last loss q).1,
        (e.run look (e.run look c false loss p).2 last loss q).2)

/-- R115: the packets of a message give what one packet of all its bytes gives. -/
theorem runMessage_eq_run {e : Engine} {inv : Codec → Prop} (h : e.Splits inv) (look : Nat → Half) (loss : Bool)
    {c : Codec} (hc : inv c) {ps : List (List Byte)} (hps : ps ≠ []) :
    runMessage e look loss c ps = e.run look c true loss ps.flatten := by
  induction ps generalizing c with
  | nil => exact absurd rfl hps
  | cons p ps ih =>
    cases ps with
    | nil => rw [List.flatten_singleton]; rfl
    | cons q ps =>
      rw [runMessage, ih (h.run look c loss p hc) nofun, List.flatten_cons (l := p), h.append look c true loss p _ hc]

/-- A packet of an accumulator engine, cut in two. -/
theorem accPacket_append (cfg : Config) (bpp nb acc : Nat) (last : Bool) (p q : List Byte) :
    accPacket cfg bpp nb acc last (p ++ q) =
      ((accPacket cfg bpp nb acc false p).1 ++
          (accPacket cfg bpp (accPacket cfg bpp nb acc false p).2.1 (accPacket cfg bpp nb acc false p).2.2 last q).1,
        (accPacket cfg bpp (accPacket cfg bpp nb acc false p).2.1 (accPacket cfg bpp nb acc false p).2.2 last q).2) := by
  cases last <;> simp [accPacket, accBytes_append]

/-- The register fields hold the residue of a packet (R35 to R37). -/
theorem residue_toNat {w : Nat} {r : Nat × Nat} (hn : r.1 < 16) (hw : r.1 ≤ w) (ha : r.2 < 2 ^ r.1) :
    (residue w r).nb.toNat = r.1 ∧ (residue w r).acc.toNat = r.2 := by
  refine ⟨?_, ?_⟩
  · simp only [residue, BitVec.toNat_ofNat]
    omega
  · simp only [residue, BitVec.toNat_ofNat]
    exact Nat.mod_eq_of_lt (lt_of_lt_of_le ha (Nat.pow_le_pow_right (by omega) hw))

/-- What a packet within a message leaves in an accumulator engine's registers: a state in range, holding the residue. -/
theorem accPacket_registers (cfg : Config) {bpp w : Nat} (hb : bpp ≤ 16)
    (hw : ∀ n, n < bpp → (bpp % 2 = 0 → n % 2 = 0) → n ≤ w) {a : Accum w} (ha : accumInv bpp a) (p : List Byte) :
    accumInv bpp (residue w (accPacket cfg bpp a.nb.toNat a.acc.toNat false p).2) ∧
    (residue w (accPacket cfg bpp a.nb.toNat a.acc.toNat false p).2).nb.toNat =
      (accPacket cfg bpp a.nb.toNat a.acc.toNat false p).2.1 ∧
    (residue w (accPacket cfg bpp a.nb.toNat a.acc.toNat false p).2).acc.toNat =
      (accPacket cfg bpp a.nb.toNat a.acc.toNat false p).2.2 := by
  obtain ⟨hn, he, hacc⟩ := ha
  obtain ⟨rn, re, racc⟩ := accPacket_residue cfg hn he hacc false p
  have hfit := hw _ rn re
  exact ⟨accumInv_residue hb hfit rn re racc, residue_toNat (by omega) hfit racc⟩

theorem engine11_splits (cfg : Config) : (engine11 cfg).Splits fun c => accumInv 11 c.u11 where
  restart _ := accumInv_empty (by decide)
  run _ _ _ p hc := (accPacket_registers cfg (by decide) (by omega) hc p).1
  append look c last loss p q hc := by
    obtain ⟨-, hnb, hacc⟩ := accPacket_registers cfg (by decide) (by omega) hc p
    simp only [engine11, accPacket_append, emitSamples_append, hnb, hacc]

theorem engine6_splits (cfg : Config) : (engine6 cfg).Splits fun c => accumInv 6 c.u6 where
  restart _ := accumInv_empty (by decide)
  run _ _ _ p hc := (accPacket_registers cfg (by decide) (by omega) hc p).1
  append look c last loss p q hc := by
    obtain ⟨-, hnb, hacc⟩ := accPacket_registers cfg (by decide) (by omega) hc p
    simp only [engine6, accPacket_append, emitSamples_append, hnb, hacc]

theorem engine10_splits (cfg : Config) : (engine10 cfg).Splits fun c => accumInv 10 c.u10 where
  restart _ := accumInv_empty (by decide)
  run _ _ _ p hc := (accPacket_registers cfg (by decide) (by omega) hc p).1
  append look c last loss p q hc := by
    obtain ⟨-, hnb, hacc⟩ := accPacket_registers cfg (by decide) (by omega) hc p
    simp only [engine10, accPacket_append, emitSamples_append, hnb, hacc]

/-- The groups of `g` groups of bytes and of what follows. -/
theorem groupsSamples_add (g g' : Nat) (bs : List Byte) :
    groupsSamples (g + g') bs = groupsSamples g bs ++ groupsSamples g' (bs.drop (24 * g)) := by
  induction g generalizing bs with
  | zero => simp [groupsSamples]
  | succ g ih =>
    rw [Nat.add_right_comm, groupsSamples, groupsSamples, ih, List.drop_drop, List.append_assoc, Nat.mul_succ,
      Nat.add_comm 24]

/-- The first groups do not depend on the bytes after them. -/
theorem groupsSamples_append_left {g : Nat} {P : List Byte} (h : 24 * g ≤ P.length) (Q : List Byte) :
    groupsSamples g (P ++ Q) = groupsSamples g P := by
  induction g generalizing P with
  | zero => rfl
  | succ g ih =>
    have hrest : 24 * g ≤ (P.drop 24).length := by
      rw [List.length_drop]
      omega
    rw [groupsSamples, groupsSamples, List.take_append_of_le_length (by omega), List.drop_append_of_le_length (by omega),
      ih hrest]

/-- The bytes of a packet of U12 cut in two: the bytes carried from the first part come before the second. -/
theorem packet12_append (cfg : Config) (bs q : List Byte) (last : Bool) :
    packet12 cfg (bs ++ q) last =
      ((packet12 cfg bs false).1 ++ (packet12 cfg ((packet12 cfg bs false).2 ++ q) last).1,
        (packet12 cfg ((packet12 cfg bs false).2 ++ q) last).2) := by
  have hfit : 24 * (bs.length / 24) ≤ bs.length := Nat.mul_div_le _ _
  have hleft : (packet12 cfg bs false).2 ++ q = (bs ++ q).drop (24 * (bs.length / 24)) :=
    (List.drop_append_of_le_length hfit).symm
  have hcount : (bs ++ q).length / 24 = bs.length / 24 + ((bs ++ q).drop (24 * (bs.length / 24))).length / 24 := by
    rw [List.length_drop, List.length_append]
    omega
  have hgroups (g : Nat) : groupsSamples (bs.length / 24 + g) ((bs ++ q).map (streamByte cfg.bitOrder)) =
      groupsSamples (bs.length / 24) (bs.map (streamByte cfg.bitOrder)) ++
        groupsSamples g (((bs ++ q).drop (24 * (bs.length / 24))).map (streamByte cfg.bitOrder)) := by
    rw [groupsSamples_add, ← List.map_drop, List.map_append, groupsSamples_append_left (by rwa [List.length_map])]
  rw [hleft]
  unfold packet12
  rw [hcount]
  cases last
  · simp only [hgroups, List.map_append (f := sampleValue _ _), Nat.mul_add, List.drop_drop, Bool.false_eq_true, if_false]
  · simp only [hgroups, List.map_append (f := sampleValue _ _), Nat.mul_add, List.drop_drop, Bool.false_eq_true, if_false,
      if_true, List.append_assoc]

theorem engine12_splits (cfg : Config) : (engine12 cfg).Splits fun _ => True where
  restart _ := trivial
  run _ _ _ _ _ := trivial
  append look c last loss p q _ := by
    simp only [engine12, ← List.append_assoc, packet12_append cfg (c.c12 ++ p), emitSamples_append]

/-- The macropixels of bytes cut in two: the bytes left over come before the second part. -/
theorem macropixels_append (bs q : List Byte) :
    macropixels (bs ++ q) =
      ((macropixels bs).1 ++ (macropixels ((macropixels bs).2 ++ q)).1, (macropixels ((macropixels bs).2 ++ q)).2) := by
  induction bs using macropixels.induct with
  | case1 u y1 v y2 bs ih => simp [macropixels, ih]
  | case2 bs h =>
    have hshort : macropixels bs = ([], bs) := by rw [macropixels]; exact h
    rw [hshort]
    rfl

theorem engineYuv_splits : engineYuv.Splits fun _ => True where
  restart _ := trivial
  run _ _ _ _ _ := trivial
  append look c last loss p q _ := by
    simp only [engineYuv, ← List.append_assoc, macropixels_append (c.cy ++ p), List.map_append]
    rfl

/-- Every engine gives the same whether a packet is cut in two or not. -/
theorem ParseOp.splits (k : ParseOp) : ∃ inv, k.engine.Splits inv := by
  cases k with
  | u11 => exact ⟨_, engine11_splits Config.lub⟩
  | u12 => exact ⟨_, engine12_splits Config.lub⟩
  | u6 => exact ⟨_, engine6_splits Config.lub⟩
  | u10 => exact ⟨_, engine10_splits Config.lub⟩
  | yuv => exact ⟨_, engineYuv_splits⟩

/-- Settles O43: a message is one packet, cut. -/
theorem splitInvariance : Obligations.SplitInvariance := by
  intro k look loss c ps hps
  obtain ⟨inv, h⟩ := k.splits
  exact runMessage_eq_run h look loss (h.restart c) hps

/-! ### How many bytes a message gives (R114, R134) -/

/-- A message of `n` bytes from phase 0 gives an accumulator engine's samples. -/
theorem emitSamples_accPacket_length (cfg : Config) {bpp : Nat} (hp : 0 < bpp) (loss : Bool) (out : Nat → Half)
    (payload : List Byte) :
    (emitSamples cfg loss out (accPacket cfg bpp 0 0 true payload).1).length =
      cfg.outW / 8 *
        (if cfg.tailFlush then (8 * payload.length + bpp - 1) / bpp else 8 * payload.length / bpp) := by
  rw [emitSamples_length, accPacket_length cfg hp Nat.one_pos, accNeed_last hp, Nat.zero_add]
  rfl

/-- Settles O44: the count of one packet of all the bytes. -/
theorem messageCount : Obligations.MessageCount := by
  intro cfg look loss c ps hps
  have count {e : Engine} {inv : Codec → Prop} (h : e.Splits inv) :
      runMessage e look loss (e.restart c) ps = e.run look (e.restart c) true loss ps.flatten :=
    runMessage_eq_run h look loss (h.restart c) hps
  simp only [count (engine11_splits cfg), count (engine6_splits cfg), count (engine10_splits cfg),
    count (engine12_splits cfg), count engineYuv_splits]
  refine ⟨⟨?_, ?_, ?_, ?_⟩, ?_⟩
  · exact emitSamples_accPacket_length cfg (bpp := 11) (by decide) ..
  · exact emitSamples_accPacket_length cfg (bpp := 6) (by decide) ..
  · exact emitSamples_accPacket_length cfg (bpp := 10) (by decide) ..
  · exact (emitSamples_length ..).trans ((packet12_length ..).trans (need12_last ..))
  · exact (List.length_map ..).trans (macropixels_length _).1

/-! ### A message in memory (R100, R181, R186) -/

theorem hasBegin_fragAt (first last : Bool) : hasBegin (fragAt first last) = first := by
  cases first <;> cases last <;> rfl

theorem hasEnd_fragAt (first last : Bool) : hasEnd (fragAt first last) = last := by
  cases first <;> cases last <;> rfl

theorem Memory.writeBytes_append (m : Memory) (a : Nat) (xs ys : List Byte) :
    m.writeBytes a (xs ++ ys) = (m.writeBytes a xs).writeBytes (a + xs.length) ys := by
  induction xs generalizing m a with
  | nil => rfl
  | cons x xs ih =>
    rw [List.cons_append, Memory.writeBytes, ih, List.length_cons, Nat.add_right_comm]
    rfl

/-- No packet's payload lies in the unwritten part of the destination (R186). -/
def payloadsApart (ps : List (Word × Nat)) (s : State) : Prop :=
  ∀ p ∈ ps, ∀ a, p.1.toNat ≤ a → a < p.1.toNat + p.2 →
    ¬ (s.boundBase.toNat + s.wr.toNat ≤ a ∧ a < s.boundBase.toNat + s.boundCap.toNat)

/-- The payloads of the packets, each as it stands in memory. -/
def payloads (m : Memory) (ps : List (Word × Nat)) : List (List Byte) := ps.map fun p => m.readBytes p.1.toNat p.2

/-- The codec state with which a message's packets go on: that of step 3 of R100 at its first. -/
def ParseOp.codecAt (k : ParseOp) (first : Bool) (c : Codec) : Codec := if first then k.engine.restart c else c

/-- What a packet emits and leaves, its flag coming from its place in the message. -/
theorem output_fragAt (k : ParseOp) (first last loss : Bool) (len : Nat) (s : State) :
    k.output (fragAt first last) loss len s =
      k.engine.run (lut s) (k.codecAt first s.codec) last loss (s.mem.readBytes s.srcBase.toNat len) := by
  rw [ParseOp.output, ParseOp.start, hasBegin_fragAt, hasEnd_fragAt]
  rfl

/-- The packets sent next are as they were: what was stored lies in the part of the destination they are apart from, and
what is left of it is part of it. -/
theorem payloads_of_stored {ps : List (Word × Nat)} {s t : State} {bs : List Byte} (hwf : s.mem.wf)
    (hapart : payloadsApart ps s) (hmem : t.mem = s.mem.writeBytes (s.boundBase.toNat + s.wr.toNat) bs)
    (hwr : t.wr.toNat = s.wr.toNat + bs.length) (hcap : t.wr.toNat ≤ s.boundCap.toNat)
    (hbase : t.boundBase = s.boundBase) (hbound : t.boundCap = s.boundCap) :
    payloads t.mem ps = payloads s.mem ps ∧ payloadsApart ps t := by
  refine ⟨List.map_congr_left fun p hp => Memory.readBytes_congr fun a hlo hhi => ?_, fun p hp a hlo hhi => ?_⟩
  · have := hapart p hp a hlo hhi
    rw [hmem, Memory.read_writeBytes _ _ _ hwf, if_neg (by omega)]
  · have := hapart p hp a hlo hhi
    rw [hbase, hbound]
    omega

/-- The first command of a message that succeeds, and the message after it. -/
theorem sendMessage_cons {k : ParseOp} {loss first : Bool} {p : Word × Nat} {ps : List (Word × Nat)} {s t : State}
    (h : sendMessage k loss first (p :: ps) s = some t) :
    ∃ u, exec (k.instr (fragAt first ps.isEmpty) loss p.2) { s with srcBase := p.1 } = .next u ∧ u.status.err = .ok ∧
      sendMessage k loss false ps u = some t := by
  unfold sendMessage at h
  split at h
  · rename_i u hexec
    split at h
    · exact ⟨u, hexec, ‹_›, h⟩
    · cases h
  · cases h
  · cases h

/-- What a message leaves, by induction on its packets: the engine's output for it, stored from the cursor on. -/
theorem sendMessage_eq {k : ParseOp} {loss : Bool} {ps : List (Word × Nat)} (hps : ps ≠ []) {first : Bool} {s t : State}
    (hinv : stateInv s) (hapart : payloadsApart ps s) (h : sendMessage k loss first ps s = some t) :
    t.mem = s.mem.writeBytes (s.boundBase.toNat + s.wr.toNat)
      (runMessage k.engine (lut s) loss (k.codecAt first s.codec) (payloads s.mem ps)).1 ∧
    t.codec = (runMessage k.engine (lut s) loss (k.codecAt first s.codec) (payloads s.mem ps)).2 ∧
    t.wr.toNat = s.wr.toNat +
      (runMessage k.engine (lut s) loss (k.codecAt first s.codec) (payloads s.mem ps)).1.length ∧
    t.boundBase = s.boundBase := by
  induction ps generalizing first s with
  | nil => exact absurd rfl hps
  | cons p ps ih =>
    have ⟨_, _, _, _, hwf, _⟩ := hinv
    obtain ⟨u, hexec, hok, hrest⟩ := sendMessage_cons h
    obtain ⟨hmem, hcodec, hwr, hbase, hbound, hlut⟩ := exec_instr_ok (s := { s with srcBase := p.1 }) hinv hexec hok
    rw [output_fragAt] at hmem hcodec hwr
    cases ps with
    | nil =>
      cases hrest
      exact ⟨hmem, hcodec, hwr, hbase⟩
    | cons q ps =>
      have huinv : stateInv u := exec_stateInv (s := { s with srcBase := p.1 }) hinv hexec
      have ⟨⟨hcap, _⟩, _⟩ := huinv
      obtain ⟨hsame, hapart'⟩ := payloads_of_stored hwf (fun r hr => hapart r (List.mem_cons_of_mem p hr)) hmem hwr
        (hbound ▸ hcap) hbase hbound
      obtain ⟨imem, icodec, iwr, ibase⟩ := ih nofun huinv hapart' hrest
      rw [hsame, hlut, ParseOp.codecAt, if_neg Bool.false_ne_true, hcodec] at imem icodec iwr
      refine ⟨?_, icodec, ?_, ibase.trans hbase⟩
      · rw [imem, hmem, hbase, hwr, ← Nat.add_assoc]
        exact (Memory.writeBytes_append ..).symm
      · rw [iwr, hwr, Nat.add_assoc, ← List.length_append]
        rfl

/-- Settles O45: what the message leaves, in one packet. -/
theorem messageLeavesItsOutput : Obligations.MessageLeavesItsOutput := by
  intro k loss s t ps hinv hps hapart h out
  have ⟨_, _, _, _, hwf, _⟩ := hinv
  obtain ⟨hmem, hcodec, hwr, hbase⟩ := sendMessage_eq hps hinv hapart h
  have hout : runMessage k.engine (lut s) loss (k.codecAt true s.codec) (payloads s.mem ps) = out := by
    rw [ParseOp.codecAt, if_pos rfl, splitInvariance k (lut s) loss s.codec _ (by simpa [payloads] using hps)]
    rfl
  rw [hout] at hmem hcodec hwr
  refine ⟨hwr, hcodec, hbase, fun a => ?_⟩
  rw [hmem, Memory.read_writeBytes _ _ _ hwf]

end Sys2Proof.Machine

namespace Sys2Proof.Machine

/-! ## The converter (R130 to R133) -/

/-! ### The conversion of a pixel (R131) -/

theorem clamp255_eq_max_min (n : Int) : clamp255 n = max 0 (min 255 n) := by
  unfold clamp255
  split_ifs <;> omega

/-- A channel in hundred-thousandths is the floored and clamped rational: the floor of a quotient is the quotient
rounded down. -/
theorem channel_eq_clampByte (n : Int) : channel n = clampByte (n / 100000) := by
  have hfloor : (n / 100000 : Rat).floor = n.fdiv 100000 := by
    rw [Int.fdiv_eq_ediv_of_nonneg n (by decide)]
    exact Rat.floor_intCast_div_natCast n 100000
  rw [channel, clampByte, clamp255_eq_max_min, hfloor]

/-- Settles O42: each channel is its equation in hundred-thousandths. -/
theorem rgbFollowsEquations : Obligations.RgbFollowsEquations := by
  intro y u v Y U V
  have hred : ((100000 * (y.toNat : Int) + 113983 * chroma v : Int) : Rat) / 100000 = Y + 113983 / 100000 * V := by
    push_cast [chroma, Y, V]
    ring
  have hgreen : ((100000 * (y.toNat : Int) - 39466 * chroma u - 58060 * chroma v : Int) : Rat) / 100000 =
      Y - 39466 / 100000 * U - 58060 / 100000 * V := by
    push_cast [chroma, Y, U, V]
    ring
  have hblue : ((100000 * (y.toNat : Int) + 203211 * chroma u : Int) : Rat) / 100000 = Y + 203211 / 100000 * U := by
    push_cast [chroma, Y, U]
    ring
  rw [rgb, channel_eq_clampByte, channel_eq_clampByte, channel_eq_clampByte, hred, hgreen, hblue]

/-! ### What a SINGLE packet leaves in memory (R130, R132, R133) -/

theorem macropixel_length (u y1 v y2 : Byte) : (macropixel u y1 v y2).length = 6 := rfl

/-- Byte `i` of the `j`-th macropixel's six comes from bytes `4 * j` to `4 * j + 3` of the payload. -/
theorem macropixels_getD {bs : List Byte} {j i : Nat} (hj : j < bs.length / 4) (hi : i < 6) :
    (macropixels bs).1.getD (6 * j + i) 0#8 =
      (macropixel (bs.getD (4 * j) 0#8) (bs.getD (4 * j + 1) 0#8) (bs.getD (4 * j + 2) 0#8)
        (bs.getD (4 * j + 3) 0#8)).getD i 0#8 := by
  induction bs using macropixels.induct generalizing j with
  | case1 u y1 v y2 bs ih =>
    have hlen := macropixel_length u y1 v y2
    rw [macropixels]
    cases j with
    | zero =>
      rw [List.getD_append _ _ _ _ (by omega), Nat.mul_zero, Nat.zero_add]
      rfl
    | succ j =>
      have hrest : j < bs.length / 4 := by
        simp only [List.length_cons] at hj
        omega
      rw [List.getD_append_right _ _ _ _ (by omega), hlen, show 6 * (j + 1) + i - 6 = 6 * j + i by omega, ih hrest]
      rfl
  | case2 bs h =>
    have hshort : macropixels bs = ([], bs) := by rw [macropixels]; exact h
    have hfew : bs.length ≤ 3 := by simpa [hshort] using (macropixels_length bs).2
    omega

/-- A SINGLE packet of the converter emits the macropixels of its payload alone and carries nothing (R133). -/
theorem single_output_yuv (len : Nat) (s : State) :
    (ParseOp.yuv.output .single false len s).1 = (macropixels (s.mem.readBytes s.srcBase.toNat len)).1 ∧
    (ParseOp.yuv.output .single false len s).2.cy = [] := ⟨List.map_id _, rfl⟩

/-- The converter's `need` for a SINGLE packet (R130). -/
theorem single_need_yuv (len : Nat) (s : State) : ParseOp.yuv.need .single len s = 6 * (len / 4) :=
  congrArg (fun n => 6 * (n / 4)) (Nat.zero_add len)

/-- Settles O41: the command completes with the bytes of `single_output_yuv`, and a read of one of them gives its byte
of the macropixel. -/
theorem converterStoresMacropixels : Obligations.ConverterStoresMacropixels := by
  intro len s hinv hfit hsrc hcap hdst
  have ⟨_, _, _, _, hwf, _⟩ := hinv
  have hlen := Memory.readBytes_length s.mem s.srcBase.toNat len
  obtain ⟨hout, hcy⟩ := single_output_yuv len s
  rw [← single_need_yuv len s] at hcap hdst
  obtain ⟨hexec, hlt⟩ := parseCompletes .yuv .single false len s hinv (parseRuns_of_begin rfl hfit) hsrc hcap hdst
  refine ⟨_, hexec, (wr_add_need hlt).trans (by rw [single_need_yuv]), hcy, ?_⟩
  intro j i hj hi p
  have hstored : 6 * j + i < (macropixels (s.mem.readBytes s.srcBase.toNat len)).1.length := by
    rw [(macropixels_length _).1, hlen]
    omega
  rw [hout, Nat.add_assoc, Memory.read_writeBytes_add _ hwf hstored, macropixels_getD (by rwa [hlen]) hi,
    Memory.readBytes_getD _ _ _ _ (by omega), Memory.readBytes_getD _ _ _ _ (by omega),
    Memory.readBytes_getD _ _ _ _ (by omega), Memory.readBytes_getD _ _ _ _ (by omega)]
  rfl

end Sys2Proof.Machine

namespace Sys2Proof.Machine

/-! ## The shift-to-depth tables (R140 to R146) -/

/-! ### The loop of the fill (R142) -/

/-- A shift is in the loop's list exactly when it is in the loop's range. -/
theorem mem_loopShifts {r : S2dConfig} {x : Nat} :
    x ∈ List.range' 1 (r.maxShift.toNat - 1) ↔ 1 ≤ x ∧ x < r.maxShift.toNat := by
  rw [List.mem_range'_1]
  omega

/-- Entry `i` of the inverse table as step (e) would leave it, were the loop to end here (R142). -/
def FillState.closedAt (a : FillState) (i : Nat) : Half :=
  if a.lastDepth ≤ i then BitVec.ofNat 16 a.lastIndex else a.d2s.getD i 0#16

/-- What the fill leaves in the inverse table up to the maximum depth is the loop's table, closed. -/
theorem fillD2s_eq_closedAt (f : S2dConfig → Nat → Option Rat) {r : S2dConfig} (shiftAlloc : Nat)
    {depthAlloc i : Nat} (halloc : r.maxDepth.toNat < depthAlloc)
    (hi : i ≤ r.maxDepth.toNat) :
    (fillD2s f r shiftAlloc depthAlloc).getD i 0#16 = (fillLoop f r shiftAlloc depthAlloc).closedAt i := by
  have hlen : (fillLoop f r shiftAlloc depthAlloc).d2s.length = depthAlloc := by
    simp [fillLoop, foldl_fillShift_length]
  simp only [fillD2s, setRange_getD, hlen, FillState.closedAt]
  congr 1
  apply propext
  omega

section Loop

variable {f : S2dConfig → Nat → Option Rat} {r : S2dConfig} {a : FillState} {shifts : List Nat}
  {shiftAlloc depthAlloc s d i : Nat}

theorem fillShift_of_invalid (h : validDepth f r s = none) : fillShift f r a s = a := by rw [fillShift, h]

theorem fillShift_of_valid (h : validDepth f r s = some d) :
    fillShift f r a s = ⟨a.s2d.set s (BitVec.ofNat 16 d),
      setRange (BitVec.ofNat 16 a.lastIndex) a.lastDepth d a.d2s, d, s⟩ := by rw [fillShift, h]

/-- The back-fill of a valid shift writes what closing before it would have written below its depth: closing after it
differs at its depth and above only, where the entries take the new shift. -/
theorem closedAt_fillShift_of_valid (h : validDepth f r s = some d) (hi : i < a.d2s.length) :
    (fillShift f r a s).closedAt i = if d ≤ i then BitVec.ofNat 16 s else a.closedAt i := by
  simp only [fillShift_of_valid h, FillState.closedAt, setRange_getD]
  by_cases hd : d ≤ i
  · simp [hd]
  · by_cases hl : a.lastDepth ≤ i <;> simp [hd, hl, hi, Nat.lt_of_not_le hd]

/-- Shifts other than `s` leave entry `s` of the forward table. -/
theorem foldl_fillShift_s2d_getD (h : ∀ x ∈ shifts, ∀ d, validDepth f r x = some d → x ≠ s) :
    (shifts.foldl (fillShift f r) a).s2d.getD s 0#16 = a.s2d.getD s 0#16 := by
  refine List.foldlRecOn (motive := fun b : FillState => b.s2d.getD s 0#16 = a.s2d.getD s 0#16) shifts _ rfl ?_
  intro b hb x hx
  cases hv : validDepth f r x with
  | none => rwa [fillShift_of_invalid hv]
  | some d => simpa [fillShift_of_valid hv, List.getElem?_set_ne (h x hx d hv)] using hb

/-- Shifts deeper than `i` leave entry `i` of the closed inverse table. -/
theorem foldl_fillShift_closedAt (hi : i < a.d2s.length)
    (h : ∀ x ∈ shifts, ∀ d, validDepth f r x = some d → i < d) :
    (shifts.foldl (fillShift f r) a).closedAt i = a.closedAt i := by
  suffices hboth : i < (shifts.foldl (fillShift f r) a).d2s.length ∧
      (shifts.foldl (fillShift f r) a).closedAt i = a.closedAt i from hboth.2
  refine List.foldlRecOn (motive := fun b : FillState => i < b.d2s.length ∧ b.closedAt i = a.closedAt i)
    shifts _ ⟨hi, rfl⟩ ?_
  rintro b ⟨hlen, hb⟩ x hx
  cases hv : validDepth f r x with
  | none => rw [fillShift_of_invalid hv]; exact ⟨hlen, hb⟩
  | some d =>
    rw [closedAt_fillShift_of_valid hv hlen, if_neg (Nat.not_le.2 (h x hx d hv))]
    exact ⟨by simpa [fillShift_of_valid hv] using hlen, hb⟩

/-- No shift touches the inverse table above the maximum depth. -/
theorem foldl_fillShift_d2s_getD (hi : r.maxDepth.toNat < i) :
    (shifts.foldl (fillShift f r) a).d2s.getD i 0#16 = a.d2s.getD i 0#16 := by
  refine List.foldlRecOn (motive := fun b : FillState => b.d2s.getD i 0#16 = a.d2s.getD i 0#16) shifts _ rfl ?_
  intro b hb x _
  cases hv : validDepth f r x with
  | none => rwa [fillShift_of_invalid hv]
  | some d =>
    have hd := (validDepth_some hv).1
    rw [fillShift_of_valid hv, setRange_getD, if_neg (by omega), hb]

/-- The loop, cut at a shift of its range: some state before it, its own turn, and the turns of the later shifts. -/
theorem fillLoop_cut (f : S2dConfig → Nat → Option Rat) (shiftAlloc depthAlloc : Nat) (h1 : 1 ≤ s)
    (hs : s < r.maxShift.toNat) :
    ∃ (before : FillState) (later : List Nat),
      before.s2d.length = shiftAlloc ∧ before.d2s.length = depthAlloc ∧
      (∀ x ∈ later, s < x ∧ x < r.maxShift.toNat) ∧
      fillLoop f r shiftAlloc depthAlloc = later.foldl (fillShift f r) (fillShift f r before s) := by
  have hcut : List.range' 1 (r.maxShift.toNat - 1) =
      List.range' 1 (s - 1) ++ s :: List.range' (s + 1) (r.maxShift.toNat - 1 - s) := by
    rw [← List.range'_succ, show r.maxShift.toNat - 1 = s - 1 + (r.maxShift.toNat - 1 - s + 1) by omega,
      ← List.range'_append_1]
    congr 2 <;> omega
  refine ⟨(List.range' 1 (s - 1)).foldl (fillShift f r)
    ⟨List.replicate shiftAlloc 0#16, List.replicate depthAlloc 0#16, 0, 0⟩,
    List.range' (s + 1) (r.maxShift.toNat - 1 - s), ?_, ?_, fun x hx => ?_, ?_⟩
  · simp [foldl_fillShift_length]
  · simp [foldl_fillShift_length]
  · rw [List.mem_range'_1] at hx
    omega
  · rw [fillLoop, hcut, List.foldl_append, List.foldl_cons]

/-! ### The entries of both tables, for every depth function (R142) -/

/-- The entry of a valid shift is its depth. -/
theorem fillS2d_getD_of_valid (depthAlloc : Nat) (halloc : r.maxShift.toNat < shiftAlloc) (h : validAt f r s d) :
    ((fillS2d f r shiftAlloc depthAlloc).getD s 0#16).toNat = d := by
  obtain ⟨h1, hs, hv⟩ := h
  have hd := (validDepth_some hv).1
  obtain ⟨before, later, hlen, -, hlater, hloop⟩ := fillLoop_cut f shiftAlloc depthAlloc h1 hs
  have hother : ∀ x ∈ later, ∀ d', validDepth f r x = some d' → x ≠ s := fun x hx _ _ => (hlater x hx).1.ne'
  have hset : (before.s2d.set s (BitVec.ofNat 16 d)).getD s 0#16 = BitVec.ofNat 16 d := by
    simp [List.getElem?_set_self (show s < before.s2d.length by omega)]
  rw [fillS2d, hloop, foldl_fillShift_s2d_getD hother, fillShift_of_valid hv, hset]
  exact Nat.mod_eq_of_lt (hd.trans_lt r.maxDepth.isLt)

/-- The entry of every index that is no valid shift is 0. -/
theorem fillS2d_getD_of_invalid (shiftAlloc depthAlloc : Nat) (h : ¬ ∃ d, validAt f r s d) :
    (fillS2d f r shiftAlloc depthAlloc).getD s 0#16 = 0#16 := by
  have hother : ∀ x ∈ List.range' 1 (r.maxShift.toNat - 1), ∀ d, validDepth f r x = some d → x ≠ s := by
    rintro x hx d hv rfl
    obtain ⟨h1, hs⟩ := mem_loopShifts.1 hx
    exact h ⟨d, h1, hs, hv⟩
  rw [fillS2d, fillLoop, foldl_fillShift_s2d_getD hother]
  exact List.getElem?_getD_replicate_default_eq _ _ _

/-- Up to the maximum depth, an entry of the inverse table is the last of the valid shifts no deeper than it. -/
theorem fillD2s_getD_of_last (shiftAlloc : Nat) (halloc : r.maxDepth.toNat < depthAlloc) (h : validAt f r s d)
    (hd : d ≤ i) (hi : i ≤ r.maxDepth.toNat) (hlast : ∀ s' d', validAt f r s' d' → s < s' → i < d') :
    ((fillD2s f r shiftAlloc depthAlloc).getD i 0#16).toNat = s := by
  obtain ⟨h1, hs, hv⟩ := h
  obtain ⟨before, later, -, hlen, hlater, hloop⟩ := fillLoop_cut f shiftAlloc depthAlloc h1 hs
  have hdeeper : ∀ x ∈ later, ∀ d', validDepth f r x = some d' → i < d' := by
    intro x hx d' hv'
    obtain ⟨hsx, hx⟩ := hlater x hx
    exact hlast x d' ⟨by omega, hx, hv'⟩ hsx
  have hlen' : (fillShift f r before s).d2s.length = before.d2s.length := (foldl_fillShift_length f r [s] before).2
  rw [fillD2s_eq_closedAt f shiftAlloc halloc hi, hloop, foldl_fillShift_closedAt (by omega) hdeeper,
    closedAt_fillShift_of_valid hv (by omega), if_pos hd]
  exact Nat.mod_eq_of_lt (hs.trans r.maxShift.isLt)

/-- Above the maximum depth, the inverse table is 0. -/
theorem fillD2s_getD_above (f : S2dConfig → Nat → Option Rat) (shiftAlloc depthAlloc : Nat)
    (hi : r.maxDepth.toNat < i) : (fillD2s f r shiftAlloc depthAlloc).getD i 0#16 = 0#16 := by
  simp only [fillD2s]
  rw [setRange_getD, if_neg (by omega), fillLoop, foldl_fillShift_d2s_getD hi]
  exact List.getElem?_getD_replicate_default_eq _ _ _

/-- Below every valid depth, the inverse table is 0. -/
theorem fillD2s_getD_below (shiftAlloc : Nat) (halloc : r.maxDepth.toNat < depthAlloc)
    (hdeeper : ∀ s d, validAt f r s d → i < d) : (fillD2s f r shiftAlloc depthAlloc).getD i 0#16 = 0#16 := by
  rcases Nat.lt_or_ge r.maxDepth.toNat i with hi | hi
  · exact fillD2s_getD_above f shiftAlloc depthAlloc hi
  · have hloop : ∀ x ∈ List.range' 1 (r.maxShift.toNat - 1), ∀ d, validDepth f r x = some d → i < d := by
      intro x hx d hv
      obtain ⟨h1, hs⟩ := mem_loopShifts.1 hx
      exact hdeeper x d ⟨h1, hs, hv⟩
    rw [fillD2s_eq_closedAt f shiftAlloc halloc hi, fillLoop,
      foldl_fillShift_closedAt (by rw [List.length_replicate]; omega) hloop]
    exact if_pos (Nat.zero_le i)

end Loop

/-! ### What the tables hold (R144, R145) -/

/-- Settles O49: a valid shift is one whose depth passes the test of the loop, and its entry is its depth. -/
theorem forwardTableContents : Obligations.ForwardTableContents := by
  intro f r shiftAlloc depthAlloc s halloc
  refine ⟨fillS2d_length f r shiftAlloc depthAlloc, fun d h => ?_, fun q h1 hs hq hmin hmax hd => ?_,
    fillS2d_getD_of_invalid shiftAlloc depthAlloc⟩
  · have ⟨_, _, hv⟩ := h
    exact ⟨fillS2d_getD_of_valid depthAlloc halloc h, validDepth_some hv⟩
  · have hv := validDepth_of hq hmin hmax hd
    have h : validAt f r s q.floor.toNat := ⟨h1, hs, hv⟩
    obtain ⟨-, q', hq', -, -, hfloor⟩ := validDepth_some hv
    obtain rfl : q = q' := Option.some.inj (hq.symm.trans hq')
    exact ⟨h, by rw [fillS2d_getD_of_valid depthAlloc halloc h, hfloor]⟩

/-- Settles O50: the shift named is the last of the valid shifts no deeper than the entry. That holds for every depth
function, so the premise that the depth does not fall is not used. -/
theorem inverseTableOfRisingDepth : Obligations.InverseTableOfRisingDepth := by
  intro f r shiftAlloc depthAlloc i halloc
  exact ⟨fun _ s d h hd hi hlast => fillD2s_getD_of_last shiftAlloc halloc h hd hi hlast,
    fillD2s_getD_below shiftAlloc halloc, fillD2s_getD_above f shiftAlloc depthAlloc,
    fillD2s_length f r shiftAlloc depthAlloc⟩

/-- Settles O51: the last valid shift is also the least deep, so it is the last one no deeper than any entry from its
depth on, and every entry before its depth is below every valid depth. -/
theorem inverseTableOfFallingDepth : Obligations.InverseTableOfFallingDepth := by
  intro f r shiftAlloc depthAlloc i s d halloc hfalls h hlast
  have ⟨_, _, hv⟩ := h
  have hleast : ∀ s' d', validAt f r s' d' → d ≤ d' := by
    intro s' d' h'
    have ⟨_, _, hv'⟩ := h'
    rcases Nat.lt_or_eq_of_le (hlast s' d' h') with hlt | rfl
    · exact hfalls s' s d' d h' h hlt
    · exact (Option.some.inj (hv.symm.trans hv')).le
  split
  case isTrue hi =>
    exact fillD2s_getD_of_last shiftAlloc halloc h hi.1 hi.2
      fun s' d' h' hs' => absurd (hlast s' d' h') (Nat.not_le.2 hs')
  case isFalse hi =>
    by_cases hd : d ≤ i
    · rw [fillD2s_getD_above f shiftAlloc depthAlloc (by omega)]
      rfl
    · rw [fillD2s_getD_below shiftAlloc halloc fun s' d' h' => (Nat.lt_of_not_le hd).trans_le (hleast s' d' h')]
      rfl

/-- The valid shifts of one depth are bounded, so there is a last one. -/
theorem exists_last_validAt {f : S2dConfig → Nat → Option Rat} {r : S2dConfig} {s d : Nat} (h : validAt f r s d) :
    ∃ s', validAt f r s' d ∧ s ≤ s' ∧ ∀ s'', validAt f r s'' d → s'' ≤ s' := by
  have hle : ∀ s', validAt f r s' d → s' ≤ r.maxShift.toNat := fun _ ⟨_, hlt, _⟩ => hlt.le
  exact ⟨_, Nat.findGreatest_spec (P := fun x => validAt f r x d) (hle s h) h, Nat.le_findGreatest (hle s h) h,
    fun s'' h'' => Nat.le_findGreatest (hle s'' h'') h''⟩

/-- Settles O52: where the depth does not fall, a valid shift after the last one of a depth is deeper, so the inverse
table holds that last one at this depth. -/
theorem inverseOfForwardTable : Obligations.InverseOfForwardTable := by
  intro f r shiftAlloc depthAlloc s d hshift hdepth hrises h
  have ⟨_, _, hv⟩ := h
  have ⟨hd, _⟩ := validDepth_some hv
  obtain ⟨s', h', hle, hgreatest⟩ := exists_last_validAt h
  refine ⟨s', h', hle, hgreatest, ?_⟩
  rw [fillS2d_getD_of_valid depthAlloc hshift h]
  refine fillD2s_getD_of_last shiftAlloc hdepth h' le_rfl hd fun s'' d'' h'' hlt => ?_
  refine lt_of_le_of_ne (hrises s' s'' d d'' h' h'' hlt) ?_
  rintro rfl
  exact absurd (hgreatest s'' h'') (Nat.not_le.2 hlt)

/-! ### The commands (R140, R141, R146) -/

/-- A build that passes its checks: the fill runs over the new allocation (R140). -/
theorem succeed_fill_allocate (cfg : Config) (s : State) :
    succeed (fill cfg (allocate s)) = .next { s with
      shiftAlloc := BitVec.ofNat 17 (s.s2dConfig.maxShift.toNat + 1)
      depthAlloc := BitVec.ofNat 17 (s.s2dConfig.maxDepth.toNat + 1)
      shiftCount := BitVec.ofNat 17 (s.s2dConfig.maxShift.toNat + 1)
      depthCount := BitVec.ofNat 17 (s.s2dConfig.maxDepth.toNat + 1)
      s2d := fillS2d cfg.depthFn s.s2dConfig (s.s2dConfig.maxShift.toNat + 1) (s.s2dConfig.maxDepth.toNat + 1)
      d2s := fillD2s cfg.depthFn s.s2dConfig (s.s2dConfig.maxShift.toNat + 1) (s.s2dConfig.maxDepth.toNat + 1)
      status := { s.status with tbl := true, err := .ok } } := by
  rw [succeed, setErr, fill, allocate_shiftAlloc, allocate_depthAlloc, toNat_ofNat_count, toNat_ofNat_count]
  rfl

/-- Settles O46: with capacities of 65536 the 16-bit maxima pass the second check. -/
theorem s2dbuildAllocatesAndFills : Obligations.S2dbuildAllocatesAndFills := by
  refine ⟨fun cfg s => ?_, fun s => ?_⟩
  · rw [s2dbuild, succeed_fill_allocate]
    rfl
  · have hfits : ¬ (s.config.shiftRam < s.s2dConfig.maxShift.toNat + 1 ∨
        s.config.depthRam < s.s2dConfig.maxDepth.toNat + 1) := by
      rw [config_shiftRam, config_depthRam]
      omega
    change s2dbuild s.config s = _
    rw [s2dbuild, if_neg hfits, succeed_fill_allocate]
    rfl

/-- Settles O47: the three checks fail alike, and past them the fill runs over the allocation in force. -/
theorem s2dupdateRefills : Obligations.S2dupdateRefills := by
  intro s
  change s2dupdate s.config s = _
  simp only [s2dupdate, ite_or]
  rfl

/-- A window onto an empty allocation shows nothing (R54). -/
theorem windowWord_of_none (t : List Half) (i : Nat) : windowWord t 0#17 i = 0#32 := if_neg (Nat.not_lt_zero i)

/-- Settles O48: with no entry allocated both windows are empty, and with no entry in force so is the lookup. -/
theorem s2dfreeTearsDown : Obligations.S2dfreeTearsDown := by
  intro s
  refine ⟨_, rfl, rfl, fun off hoff => ?_, fun v => if_neg (Nat.not_lt_zero v)⟩
  rw [regValue, if_pos hoff]
  split
  · exact windowWord_of_none _ _
  · exact windowWord_of_none _ _

end Sys2Proof.Machine

namespace Sys2Proof.Machine

/-! ## Reset by the platform (R180) -/

/-- Reset is the state after reset but for system memory, its admission and the host's own lists (R180). -/
theorem resetBlock_eq (s : State) :
    resetBlock s =
      { State.reset with mem := s.mem, memAdmit := s.memAdmit, host := s.host, reads := s.reads } := rfl

/-- The host's reset move resets the block (R180). -/
theorem hostMove_reset (s : State) : hostMove .reset s = .next (resetBlock s) := rfl

/-- Settles O15: the step takes the move from the host's list, and then the block is reset. -/
theorem resetMove : Obligations.ResetMove := by
  intro s rest hhost
  rw [step_of_move hhost, hostMove_reset, resetBlock_eq]

end Sys2Proof.Machine

namespace Sys2Proof.Machine

/-! ## The command words of the test vectors (section 7) -/

/-- Settles O4: twelve fixed words, each decoded by evaluation. -/
theorem specWordsDecode : Obligations.SpecWordsDecode := by
  unfold Obligations.SpecWordsDecode
  decide

end Sys2Proof.Machine
